-- ==== Sys2Proof/Word.lean ====
section
/-! DEFINITION. The word types of CH64. Every lane, the seed, the digest, the length and every offset is a 64-bit
unsigned value (00_scope.md R7 `XLEN`, R9, R12); DATA is made of bytes (20_memory.md R50). The operators `+`, `*`, `^^^`,
`|||`, `<<<`, `>>>` of `BitVec 64` are the spec's (R13 to R17): sums and products modulo `2^64`, logical shifts. -/

namespace Sys2Proof

/-- A 64-bit unsigned value (00_scope.md R12). -/
abbrev Word := BitVec 64

/-- One byte of the input sequence (20_memory.md R50). -/
abbrev Byte := BitVec 8

end Sys2Proof
end

