-- ==== Sys2Proof/Config.lean ====
section
/-! DEFINITION. What is fixed for the machine and what the spec leaves free. The fixed parameters are those of 00_scope.md
R7, as constants. The open parameters `P1`, `P2`, `P3` (R8) are a record that every instance carries unchanged
(`Machine.State.params`). The free values stand for what the spec calls unspecified: they have no body, so nothing can be
proved of which value they are. -/

namespace Sys2Proof.Config

/-- Bytes of one bulk block, `BLOCK` (00_scope.md R7). -/
@[simp] abbrev block : Nat := 32

/-- Bytes read by one word load, `WORD` (00_scope.md R7). -/
@[simp] abbrev word : Nat := 8

/-- Left-rotation count of the cross-lane term, `ROT` (00_scope.md R7). -/
@[simp] abbrev rot : Nat := 40

/-- Right-shift count of the lane finalisation, `SH31` (00_scope.md R7). -/
@[simp] abbrev sh31 : Nat := 31

/-- Shift count of the length swap and of the upper-half extraction, `SH32` (00_scope.md R7). -/
@[simp] abbrev sh32 : Nat := 32

/-- First right-shift count of the avalanche stage, `AV_S1` (00_scope.md R7). -/
@[simp] abbrev avS1 : Nat := 27

/-- Second right-shift count of the avalanche stage, `AV_S2` (00_scope.md R7). -/
@[simp] abbrev avS2 : Nat := 33

/-- Third right-shift count of the avalanche stage, `AV_S3` (00_scope.md R7). -/
@[simp] abbrev avS3 : Nat := 27

/-- First avalanche multiplier `M1` (00_scope.md R7). -/
@[simp] abbrev m1 : Word := 0x3C79AC492BA7B653#64

/-- Second avalanche multiplier `M2` (00_scope.md R7). -/
@[simp] abbrev m2 : Word := 0x1C69B3F74AC4AE35#64

/-- The open parameters `P1`, `P2`, `P3` (00_scope.md R8). That all three are odd is `WellFormed.params`. -/
structure Params where
  p1 : Word
  p2 : Word
  p3 : Word
  deriving DecidableEq, Repr

/-- The spec's default instantiation (00_scope.md R8). PRESUMED, unsafe: the spec marks it as general knowledge
(93_implementation_defined.md G1), not sourced; log 1. Only `State.reset` and tests use it. -/
def Params.default : Params :=
  { p1 := 0x2B7E151628AED2A5, p2 := 0x9E3793492EEDC3F7, p3 := 0x3243F6A8885A308D }

/-- FREE VALUE: a 64-bit value the spec leaves unspecified, a fresh one for every count (10_state.md R39 after the reset
event, log 3; R28 for `RES` while `DONE = 0`, log 4). Safe: no proof can see which value it is. -/
opaque freeWord : Nat → Word

/-- FREE VALUE: the lane index counter after the reset event (10_state.md R39; log 3). Safe. -/
opaque freeIndex : Nat → BitVec 3

end Sys2Proof.Config
end

