-- ==== Sys2Proof/Syntax.lean ====
section
/-! DEFINITION. The operations of CH64 as syntax: one constructor per row of the opcode table. Two are commands the host
issues (format `CMD`, 30_encoding.md R76), eleven are micro-operations the sequencer performs (format `PH`, R78). No
operation has an operand field or an immediate (R77, R78, R79). -/

namespace Sys2Proof

/-- The operations: thirteen, in the opcode table's order (30_encoding.md R76, R78). -/
inductive Instr where
  | ldle64   -- command: load one little-endian word (40_loader.md R101)
  | hash64   -- command: hash DATA with a seed (43_hash64_sequence.md R140)
  | init     -- 41_mixer.md R110
  | bulk     -- 41_mixer.md R111
  | leninj   -- 41_mixer.md R112
  | oddb     -- 41_mixer.md R113
  | fin0     -- 41_mixer.md R114
  | chunk8   -- 41_mixer.md R115
  | tail2    -- 41_mixer.md R116
  | combine  -- 42_finalizer.md R130
  | aval     -- 42_finalizer.md R131
  | ret      -- 42_finalizer.md R132
  | ldw      -- 40_loader.md R102
  deriving DecidableEq, Repr

/-- The two formats (30_encoding.md R75). -/
inductive Format where
  | cmd   -- the 8-bit command word on the port
  | ph    -- the 4-bit phase code in the phase register
  deriving DecidableEq, Repr

/-- The format an operation is encoded in (30_encoding.md R76, R78). -/
def Instr.format : Instr → Format
  | .ldle64 => .cmd
  | .hash64 => .cmd
  | .init => .ph
  | .bulk => .ph
  | .leninj => .ph
  | .oddb => .ph
  | .fin0 => .ph
  | .chunk8 => .ph
  | .tail2 => .ph
  | .combine => .ph
  | .aval => .ph
  | .ret => .ph
  | .ldw => .ph

/-- An encoded operation: a word of one of the two formats (30_encoding.md R75). The formats have separate number spaces:
`0x1` is `LDLE64` as a command word and `INIT` as a phase code. -/
inductive Code where
  | cmd (w : BitVec 8)
  | ph (c : BitVec 4)
  deriving DecidableEq, Repr

end Sys2Proof
end

