-- ==== Sys2Proof/WellFormed.lean ====
section
/-! DEFINITION. The checks on syntax and on what comes from outside. An operation has no operand (30_encoding.md R77, R78),
so every `Instr` is well-formed; what can be ill-formed is a code (R81), a parameter triple (00_scope.md R8) and a byte
sequence that is too long for `LEN` (R9, 93_implementation_defined.md U8). -/

namespace Sys2Proof.WellFormed

/-- Every operation is well-formed: it has no operand (30_encoding.md R77, R78, R79). -/
def instr : Instr → Bool
  | .ldle64 | .hash64 | .init | .bulk | .leninj | .oddb | .fin0 | .chunk8 | .tail2 | .combine | .aval | .ret | .ldw => true

/-- A code that names an operation: command word `0x01` or `0x02` (30_encoding.md R76), phase code 1 to 11 (R78). -/
def code : Code → Bool
  | .cmd w => w == 0x01 || w == 0x02
  | .ph c => decide (1 ≤ c.toNat ∧ c.toNat ≤ 11)

/-- `P1`, `P2`, `P3` are odd (00_scope.md R8). -/
def params (p : Config.Params) : Bool :=
  p.p1.getLsbD 0 && p.p2.getLsbD 0 && p.p3.getLsbD 0

/-- The sequence's length fits `LEN`: at most `2^64 - 1` bytes (00_scope.md R9). -/
def sequence (bytes : List Byte) : Bool :=
  decide (bytes.length < 2 ^ 64)

end Sys2Proof.WellFormed
end

