-- ==== Sys2Proof/Decode.lean ====
section
/-! DEFINITION. The decoder, total on every code and rejecting by name, and the encoder. Command words follow 30_encoding.md
R76, phase codes R78 with the values of 10_state.md R27, reserved and illegal codes R81. -/

namespace Sys2Proof

/-! The phase codes (10_state.md R27). -/

/-- No command in progress. -/
@[simp] abbrev Phase.idle : BitVec 4 := 0#4
@[simp] abbrev Phase.init : BitVec 4 := 1#4
@[simp] abbrev Phase.bulk : BitVec 4 := 2#4
@[simp] abbrev Phase.leninj : BitVec 4 := 3#4
@[simp] abbrev Phase.oddb : BitVec 4 := 4#4
@[simp] abbrev Phase.fin0 : BitVec 4 := 5#4
@[simp] abbrev Phase.chunk8 : BitVec 4 := 6#4
@[simp] abbrev Phase.tail2 : BitVec 4 := 7#4
@[simp] abbrev Phase.combine : BitVec 4 := 8#4
@[simp] abbrev Phase.aval : BitVec 4 := 9#4
@[simp] abbrev Phase.ret : BitVec 4 := 10#4
@[simp] abbrev Phase.ldw : BitVec 4 := 11#4
/-- A fault was taken. -/
@[simp] abbrev Phase.faulted : BitVec 4 := 15#4

/-- Why a code is no operation. -/
inductive DecodeError where
  | zeroFieldSet    -- command word with bits 7:4 not zero (30_encoding.md R76, R81)
  | unassignedOp    -- command word with `zero = 0` and an unassigned `op` (R81)
  | idlePhase       -- phase code 0: the sequencer has no step (R78)
  | reservedPhase   -- phase codes 12, 13, 14 (R81)
  | faultedPhase    -- phase code 15: the sequencer has no step (R78)
  | upperNibbleSet  -- a byte that holds a phase code in bits 3:0 and something in bits 7:4 (log 13)
  | noByte          -- an empty byte list
  deriving DecidableEq, Repr

/-- The command word: `zero = w[7:4]` must be 0, `op = w[3:0]` selects the command (30_encoding.md R76). -/
def decodeCmd (w : BitVec 8) : Except DecodeError Instr :=
  if w.extractLsb' 4 4 ≠ 0 then .error .zeroFieldSet
  else if w.extractLsb' 0 4 = 0b0001#4 then .ok .ldle64
  else if w.extractLsb' 0 4 = 0b0010#4 then .ok .hash64
  else .error .unassignedOp

/-- The phase code: all four bits are matched (30_encoding.md R78). -/
def decodePhase (c : BitVec 4) : Except DecodeError Instr :=
  match c.toNat with
  | 0 => .error .idlePhase
  | 1 => .ok .init
  | 2 => .ok .bulk
  | 3 => .ok .leninj
  | 4 => .ok .oddb
  | 5 => .ok .fin0
  | 6 => .ok .chunk8
  | 7 => .ok .tail2
  | 8 => .ok .combine
  | 9 => .ok .aval
  | 10 => .ok .ret
  | 11 => .ok .ldw
  | 15 => .error .faultedPhase
  | _ => .error .reservedPhase

/-- Decoding of a code of either format (30_encoding.md R80). -/
def decode : Code → Except DecodeError Instr
  | .cmd w => decodeCmd w
  | .ph c => decodePhase c

/-- A code as it lies in one byte: a command word fills it, a phase code stands in bits 3:0 under four zero bits (DESIGN
CHOICE, safe: log 13; the hardware keeps phase codes in `PH` only). -/
def codeOfByte (f : Format) (b : Byte) : Except DecodeError Code :=
  match f with
  | .cmd => .ok (.cmd b)
  | .ph => if b.extractLsb' 4 4 = 0 then .ok (.ph (b.extractLsb' 0 4)) else .error .upperNibbleSet

/-- Decoding from bytes: both formats are of one fixed length, one byte here (30_encoding.md R75, R82). -/
def decodeBytes (f : Format) : List Byte → Except DecodeError (Instr × List Byte)
  | [] => .error .noByte
  | b :: rest =>
    match codeOfByte f b with
    | .error e => .error e
    | .ok c =>
      match decode c with
      | .error e => .error e
      | .ok i => .ok (i, rest)

/-! The encoder, from the same tables (30_encoding.md R76, R78). -/

/-- The code of an operation. -/
def encode : Instr → Code
  | .ldle64 => .cmd 0x01
  | .hash64 => .cmd 0x02
  | .init => .ph Phase.init
  | .bulk => .ph Phase.bulk
  | .leninj => .ph Phase.leninj
  | .oddb => .ph Phase.oddb
  | .fin0 => .ph Phase.fin0
  | .chunk8 => .ph Phase.chunk8
  | .tail2 => .ph Phase.tail2
  | .combine => .ph Phase.combine
  | .aval => .ph Phase.aval
  | .ret => .ph Phase.ret
  | .ldw => .ph Phase.ldw

/-- A code as one byte. -/
def Code.toByte : Code → Byte
  | .cmd w => w
  | .ph c => c.setWidth 8

/-- An operation as bytes. -/
def encodeBytes (i : Instr) : List Byte := [(encode i).toByte]

/-! Reading a word of the opcode table, whose rows number two formats in one list. -/

/-- Which format a word of the opcode table is of. Both number spaces start at 1, so a word alone does not tell: four bits
or fewer can only be a phase code; a wider word is a command word if it is one of the two commands, else a phase code if
bits 3:0 hold one under zero bits, else a command word (an illegal one). DESIGN CHOICE, log 12. -/
def tableCode (nbits w : Nat) : Code :=
  let byte := BitVec.ofNat 8 w
  if nbits ≤ 4 then .ph (BitVec.ofNat 4 w)
  else if WellFormed.code (.cmd byte) then .cmd byte
  else
    match codeOfByte .ph byte with
    | .ok c => if WellFormed.code c then c else .cmd byte
    | .error _ => .cmd byte

/-- The operation the decoder reads from a word numbered as the opcode table numbers it. -/
def decodeTableWord (nbits w : Nat) : Option Instr :=
  match decode (tableCode nbits w) with
  | .ok i => some i
  | .error _ => none

end Sys2Proof
end

