-- ==== Sys2Proof/Machine/State.lean ====
section
/-! DEFINITION. The state of one instance as plain data: the registers of 10_state.md R20, the open parameters, and the
outside world as far as a step needs it (the DATA port's sequence, the command port, the host's coming moves, what the host
has read). Also the reasons a step can stop. -/

namespace Sys2Proof.Machine

/-- The DATA space (10_state.md R34, 20_memory.md R50): the bytes the DATA port serves, as (offset, byte) pairs with strictly
rising offsets. An unlisted offset has no byte, so no entry equals what an unlisted offset reads as (log 6). -/
abbrev Memory := List Host.Cell

/-- The canonical form of a memory: offsets strictly rising and 64 bits wide (00_scope.md R9). -/
abbrev Memory.wf (m : Memory) : Prop :=
  m.Pairwise (fun c d => c.1 < d.1) ∧ ∀ c ∈ m, c.1 < 2 ^ 64

/-- The four lane registers `h[0]` to `h[3]` (10_state.md R21). -/
structure Lanes where
  h0 : Word
  h1 : Word
  h2 : Word
  h3 : Word
  deriving DecidableEq, Repr

/-- The command port (10_state.md R30): the values the host last presented. They are inputs, not registers: only START
reads them, in the move that presents them (log 8). -/
structure Ports where
  cmd : BitVec 8
  arg : Word
  len : Word
  deriving DecidableEq, Repr

/-- The causes a fault records in `FCODE` (60_exceptions.md R171). -/
inductive FaultCode where
  | illegalCmd
  | bounds
  | laneIndex
  | protocol
  deriving DecidableEq, Repr

/-- The moves of the host (70_reset_and_hazards.md R203), complete. -/
inductive HostMove where
  | start (cmd : BitVec 8) (arg len : Word)   -- R204
  | readStatus                                -- the 8 bits of 10_state.md R29
  | readRes                                   -- R205
  | reset                                     -- R200
  | setData (bytes : List Byte)               -- "change DATA": connect a sequence to the DATA port
  deriving DecidableEq, Repr

/-- Whose turn it is: the host's, with its move, or the sequencer's (70_reset_and_hazards.md R203). `waitIdle` is the host
waiting until `BUSY = 0` (R202 step 3): the sequencer keeps the turn until then. -/
inductive Turn where
  | host (m : HostMove)
  | sequencer
  | waitIdle
  deriving DecidableEq, Repr

/-- What the host got from one read (70_reset_and_hazards.md R203). -/
inductive Observed where
  | status (v : BitVec 8)
  | res (v : Word)
  deriving DecidableEq, Repr

/-- The state. The first block is the complete set of registers (10_state.md R20). -/
structure State where
  h : Lanes
  a : Word
  n : Word
  l : Word
  off : Word
  x : Word
  i : BitVec 3
  ph : BitVec 4
  res : Word
  done : Bool
  fcode : BitVec 3
  params : Config.Params
  data : Memory
  ports : Ports
  turns : List Turn
  observed : List Observed
  freeCount : Nat
  deriving DecidableEq, Repr

/-- Why the machine stops with a fault. The faults the spec gives the hardware are next states (`State.raise`); these are
the cases in which a step has no effect to take. -/
inductive Fault where
  /-- Raised by the sequencer when `PH` holds 12, 13 or 14: "it is stuck" (30_encoding.md R81 b). Safe; unreachable from reset. -/
  | reservedPhase
  /-- Raised by `BULK`, `ODDB`, `CHUNK8`, `TAIL2` when a `MemRead` is out of bounds:
  the step must "fault or stick, never answer" (60_exceptions.md R172). Safe; unreachable from reset (log 9). -/
  | readOutOfBounds
  /-- Raised by `BULK` when it would select a lane with `i > 3`: the spec gives that no effect (41_mixer.md R118). Safe;
  unreachable from reset (log 10). -/
  | bulkLane
  deriving DecidableEq, Repr

/-- Why the model has no meaning for a step. -/
inductive Refusal where
  /-- Answered by `exec` for an instruction without a meaning yet (none now). Safe. -/
  | notModelled (mnemonic : String)
  /-- Answered by the sequencer's turn, before any micro-operation, where `N` is not the true length of the host's sequence:
  such a run "has no specified result and a model says nothing of it" (70_reset_and_hazards.md R206). Safe (log 21). -/
  | lengthNotTrue
  /-- Answered by a meaning that reads inside `N` at an offset the host's sequence does not have
  (70_reset_and_hazards.md R206 a, 93_implementation_defined.md U7 "refuse"). Safe; no step reaches it (log 6). -/
  | dataNotServed (offset : Nat)
  /-- Answered by a change of DATA while `BUSY`: "the model has no such host move" (R206, U7). Safe (log 7). -/
  | dataChangedWhileBusy
  /-- Answered by a sequence of `2^64` bytes or more: "not representable on `LEN`" (U8). Safe (log 7). -/
  | dataTooLong
  deriving DecidableEq, Repr

/-- The machine right after reset: `PH = IDLE`, `DONE = 0`, `FCODE = 0` (10_state.md R39, 70_reset_and_hazards.md R200). The
registers R39 leaves unspecified hold 0 here: DESIGN CHOICE, unsafe (log 2). The parameters are the spec's default: PRESUMED,
unsafe (log 1). No sequence is connected and the host has no move pending (log 5, 6, 8, 14, 15). -/
def State.reset : State :=
  { h := { h0 := 0, h1 := 0, h2 := 0, h3 := 0 }
    a := 0, n := 0, l := 0, off := 0, x := 0, i := 0
    ph := Phase.idle, res := 0, done := false, fcode := 0
    params := Config.Params.default
    data := []
    ports := { cmd := 0, arg := 0, len := 0 }
    turns := [], observed := [], freeCount := 0 }

end Sys2Proof.Machine
end

