-- ==== Sys2Proof/Machine/Operands.lean ====
section
/-! DEFINITION. The operand forms: how a lane is named, how an address and a value are assembled (30_encoding.md R79,
20_memory.md R57), and the arithmetic the operations share (00_scope.md R13 to R17, 41_mixer.md R119). -/

namespace Sys2Proof.Machine

/-- `rotl64(v, n)` (00_scope.md R16). -/
def rotl64 (v : Word) (n : Nat) : Word := (v <<< n) ||| (v >>> (64 - n))

/-- `(N << 32) | (N >> 32)`: the two halves exchanged (30_encoding.md R79 a). -/
def halfSwap (v : Word) : Word := (v <<< Config.sh32) ||| (v >>> Config.sh32)

/-- `mixfin(v, P)` (41_mixer.md R119): the shift reads the product. -/
def mixfin (v p : Word) : Word := (v * p) ^^^ ((v * p) >>> Config.sh31)

/-- The multiplier of a combine term, `(h[b] >> 32) | 1` (30_encoding.md R79 d). -/
def combineMultiplier (v : Word) : Word := (v >>> Config.sh32) ||| 1

/-- Zero extension to 64 bits of a 1- or 2-byte value (30_encoding.md R79 c). -/
def zext64 {w : Nat} (v : BitVec w) : Word := v.setWidth 64

/-- One statement `x ^= x >> s` of the avalanche stage (42_finalizer.md R131). -/
def xorShiftRight (x : Word) (s : Nat) : Word := x ^^^ (x >>> s)

/-- The five statements of `AVAL`, in order (42_finalizer.md R131). -/
def avalanche (x : Word) : Word :=
  let x := xorShiftRight x Config.avS1
  let x := x * Config.m1
  let x := xorShiftRight x Config.avS2
  let x := x * Config.m2
  xorShiftRight x Config.avS3

/-- The lane that `i` selects; none for 4 to 7, never a wrapped one (41_mixer.md R118). -/
def laneOf? (i : BitVec 3) : Option (Fin 4) :=
  if h : i.toNat < 4 then some ⟨i.toNat, h⟩ else none

/-- Read of lane `k`, `h[k]` (00_scope.md R11). -/
def Lanes.get (h : Lanes) (k : Fin 4) : Word :=
  match k with
  | 0 => h.h0
  | 1 => h.h1
  | 2 => h.h2
  | 3 => h.h3

/-- Write of lane `k`, `h[k] <- v` (00_scope.md R11). -/
def Lanes.set (h : Lanes) (k : Fin 4) (v : Word) : Lanes :=
  match k with
  | 0 => { h with h0 := v }
  | 1 => { h with h1 := v }
  | 2 => { h with h2 := v }
  | 3 => { h with h3 := v }

/-- One bulk word absorbed: lane `k` xored and multiplied, then lane `(k + 1) mod 4` xored with the rotated word (41_mixer.md
R111). The sum of two `Fin 4` is the source's `mod 4`. -/
def absorbWord (p1 : Word) (h : Lanes) (k : Fin 4) (w : Word) : Lanes :=
  let h := h.set k ((h.get k ^^^ w) * p1)
  h.set (k + 1) (h.get (k + 1) ^^^ rotl64 w Config.rot)

/-- `COMBINE`'s value: the seed and the four lane products (42_finalizer.md R130). -/
def combineLanes (h : Lanes) (seed : Word) : Word :=
  let x := seed
  let x := x ^^^ (h.h0 * combineMultiplier h.h2)
  let x := x ^^^ (h.h1 * combineMultiplier h.h3)
  let x := x ^^^ (h.h2 * combineMultiplier h.h0)
  x ^^^ (h.h3 * combineMultiplier h.h1)

/-- `BULK`'s effective address `off + 8 * i`, a natural-number sum (20_memory.md R57; log 18). -/
def bulkAddress (off : Word) (i : BitVec 3) : Nat := off.toNat + Config.word * i.toNat

end Sys2Proof.Machine
end

