-- ==== Sys2Proof/Machine/Flags.lean ====
section
/-! DEFINITION. There are no condition codes (10_state.md R32). What the spec has instead are the status bits, two of them
functions of `PH` (R29), and the fault codes (60_exceptions.md R171). -/

namespace Sys2Proof.Machine

/-- The value written to `FCODE` (60_exceptions.md R171). -/
def FaultCode.code : FaultCode → BitVec 3
  | .illegalCmd => 1
  | .bounds => 2
  | .laneIndex => 3
  | .protocol => 4

/-- `BUSY`: `PH` is neither `IDLE` nor `FAULTED` (10_state.md R29). -/
def State.busy (s : State) : Bool := s.ph != Phase.idle && s.ph != Phase.faulted

/-- `FAULT`: `PH` is `FAULTED` (10_state.md R29). -/
def State.faulted (s : State) : Bool := s.ph == Phase.faulted

/-- `STATUS`, from bit 7 down: 0, `FCODE` in 6:4, 0, `FAULT`, `DONE`, `BUSY` (10_state.md R29). -/
def State.status (s : State) : BitVec 8 :=
  0#1 ++ (s.fcode ++ (0#1 ++ (BitVec.ofBool s.faulted ++ (BitVec.ofBool s.done ++ BitVec.ofBool s.busy))))

end Sys2Proof.Machine
end

