-- ==== Sys2Proof/Machine/Ops.lean ====
section
/-! DEFINITION. The named operations over memory and registers that the meanings share: reading DATA (20_memory.md R52),
taking a fault (60_exceptions.md R178), START (70_reset_and_hazards.md R204) and the reset event (R200), which is the only
return from a fault (60_exceptions.md R180). -/

namespace Sys2Proof.Machine

/-! ## DATA -/

/-- The byte at an offset, if the DATA port serves one. -/
def Memory.read : Memory → Nat → Option Byte
  | [], _ => none
  | (b, v) :: m, a => if a = b then some v else Memory.read m a

/-- A sequence laid out from offset `a` on. -/
def Memory.ofBytesFrom (a : Nat) : List Byte → Memory
  | [] => []
  | b :: bs => (a, b) :: Memory.ofBytesFrom (a + 1) bs

/-- The memory that serves a byte sequence: byte `k` at offset `k` (20_memory.md R50, R60). -/
def Memory.ofBytes (bytes : List Byte) : Memory := Memory.ofBytesFrom 0 bytes

/-- Why a read gives no value. -/
inductive ReadStop where
  | outOfBounds            -- `a + n > N` (20_memory.md R52)
  | notServed (a : Nat)    -- in bounds, but the sequence has no byte there (log 6)
  deriving DecidableEq, Repr

/-- The sum of `DATA[a + k] * 2^(8k)` for `k` below the count (20_memory.md R52), or the first offset not served. -/
def Memory.readLE (m : Memory) (a : Nat) : Nat → Except Nat Nat
  | 0 => .ok 0
  | n + 1 =>
    match m.read a with
    | none => .error a
    | some b =>
      match Memory.readLE m (a + 1) n with
      | .error o => .error o
      | .ok r => .ok (b.toNat + 256 * r)

/-- `MemRead(a, n)` as a number: the bound is tested on natural numbers before anything is read (20_memory.md R52, R56). -/
def State.memRead (s : State) (a n : Nat) : Except ReadStop Nat :=
  if s.n.toNat < a + n then .error .outOfBounds
  else
    match s.data.readLE a n with
    | .error o => .error (.notServed o)
    | .ok v => .ok v

/-- `MemRead(a, 1)`, an 8-bit value. -/
def State.memRead1 (s : State) (a : Nat) : Except ReadStop Byte := (s.memRead a 1).map (BitVec.ofNat 8)

/-- `MemRead(a, 2)`, a 16-bit value. -/
def State.memRead2 (s : State) (a : Nat) : Except ReadStop (BitVec 16) := (s.memRead a 2).map (BitVec.ofNat 16)

/-- `MemRead(a, 8)`, a 64-bit value. -/
def State.memRead8 (s : State) (a : Nat) : Except ReadStop Word := (s.memRead a Config.word).map (BitVec.ofNat 64)

/-- The memory lists the offsets from `a` to `n - 1`, each once and no other. -/
def Memory.holdsExactly : Memory → Nat → Nat → Bool
  | [], a, n => a == n
  | (b, _) :: m, a, n => b == a && Memory.holdsExactly m (a + 1) n

/-- The host's duty R206 (a) (70_reset_and_hazards.md): the DATA port has a byte at every offset below `N`, and `N` is the true
length of the sequence. -/
def State.lengthIsTrue (s : State) : Bool := s.data.holdsExactly 0 s.n.toNat

/-- Go on with the value read, or stop: an out-of-bounds read is stuck (60_exceptions.md R172; log 9), a read that breaks the
host's duty is refused (70_reset_and_hazards.md R206; log 6). No step comes to such a read, since the sequencer's turn is
refused before it (log 21). -/
def withRead {α : Type} (r : Except ReadStop α) (k : α → Host.Outcome State Fault Refusal) :
    Host.Outcome State Fault Refusal :=
  match r with
  | .ok v => k v
  | .error .outOfBounds => .fault .readOutOfBounds
  | .error (.notServed a) => .refused (.dataNotServed a)

/-! ## Faults -/

/-- `raise Fault(c)`: `FCODE <- c`, `DONE <- 0`, `PH <- FAULTED`, nothing else (60_exceptions.md R178). -/
def State.raise (s : State) (c : FaultCode) : State :=
  { s with fcode := c.code, done := false, ph := Phase.faulted }

/-- The reset event, the only way out of `FAULTED`: `PH`, `DONE`, `FCODE` are written and every other register is left with
an unspecified value, a free one here (70_reset_and_hazards.md R200, 10_state.md R39; log 3). The parameters, DATA, the ports
and the host are not part of the block's registers. -/
def State.resetEvent (s : State) : State :=
  { s with
    ph := Phase.idle, done := false, fcode := 0
    h := { h0 := Config.freeWord s.freeCount
           h1 := Config.freeWord (s.freeCount + 1)
           h2 := Config.freeWord (s.freeCount + 2)
           h3 := Config.freeWord (s.freeCount + 3) }
    a := Config.freeWord (s.freeCount + 4)
    n := Config.freeWord (s.freeCount + 5)
    l := Config.freeWord (s.freeCount + 6)
    off := Config.freeWord (s.freeCount + 7)
    x := Config.freeWord (s.freeCount + 8)
    res := Config.freeWord (s.freeCount + 9)
    i := Config.freeIndex s.freeCount
    freeCount := s.freeCount + 10 }

/-! ## START -/

/-- START with a legal command whose first phase is `entry` (70_reset_and_hazards.md R204): ignored in `FAULTED`, `PROTOCOL`
while `BUSY`, else the operands are latched, `DONE` is cleared and the phase is entered. -/
def State.start (s : State) (entry : BitVec 4) : State :=
  if s.ph = Phase.faulted then s
  else if s.ph ≠ Phase.idle then s.raise .protocol
  else { s with a := s.ports.arg, n := s.ports.len, done := false, ph := entry }

/-- START with any other command word (70_reset_and_hazards.md R204, 60_exceptions.md R173): nothing is latched. -/
def State.startIllegal (s : State) : State :=
  if s.ph = Phase.faulted then s
  else if s.ph ≠ Phase.idle then s.raise .protocol
  else s.raise .illegalCmd

end Sys2Proof.Machine
end

