-- ==== Sys2Proof/Machine/Command.lean ====
section
/-! DEFINITION. The two commands. Each is START with its own first phase; the operands stand on the ports (30_encoding.md
R77). -/

namespace Sys2Proof.Machine

/-- `LDLE64` (40_loader.md R101): START with `CMD = 0x01` goes to `LDW`. -/
def execLdle64 (s : State) : Host.Outcome State Fault Refusal := .next (s.start Phase.ldw)

/-- `HASH64` (43_hash64_sequence.md R140): START with `CMD = 0x02` goes to `INIT`. -/
def execHash64 (s : State) : Host.Outcome State Fault Refusal := .next (s.start Phase.init)

end Sys2Proof.Machine
end

