-- ==== Sys2Proof/Machine/Finalizer.lean ====
section
/-! DEFINITION. The micro-operations of the terminal avalanche stage (42_finalizer.md). None reads memory or the cursor
(R134). -/

namespace Sys2Proof.Machine

/-- `COMBINE` (42_finalizer.md R130): the four lanes and the seed folded into `x`. -/
def execCombine (s : State) : Host.Outcome State Fault Refusal :=
  .next { s with x := combineLanes s.h s.a, ph := Phase.aval }

/-- `AVAL` (42_finalizer.md R131): the "moremur" mix of `x`. -/
def execAval (s : State) : Host.Outcome State Fault Refusal :=
  .next { s with x := avalanche s.x, ph := Phase.ret }

/-- `RET` (42_finalizer.md R132): the digest is delivered. -/
def execRet (s : State) : Host.Outcome State Fault Refusal :=
  .next { s with res := s.x, done := true, ph := Phase.idle }

end Sys2Proof.Machine
end

