-- ==== Sys2Proof/Machine/Loader.lean ====
section
/-! DEFINITION. The word loader's micro-operation. -/

namespace Sys2Proof.Machine

/-- `LDW` (40_loader.md R102): fewer than 8 bytes from the offset on raises `BOUNDS`, on natural numbers; else the word goes
to `RES`. That `N` is the true length of the sequence is the host's duty, which the sequencer's turn asks for before any
micro-operation (70_reset_and_hazards.md R206 a; `sequencerTurn`, log 21). -/
def execLdw (s : State) : Host.Outcome State Fault Refusal :=
  if s.n.toNat < s.a.toNat + Config.word then .next (s.raise .bounds)
  else withRead (s.memRead8 s.a.toNat) fun v =>
    .next { s with res := v, done := true, ph := Phase.idle }

end Sys2Proof.Machine
end

