-- ==== Sys2Proof/Machine/Mixer.lean ====
section
/-! DEFINITION. The micro-operations of the 4-lane state mixer (41_mixer.md). Conditions are evaluated on the register
values at the start of the micro-operation (43_hash64_sequence.md R141). -/

namespace Sys2Proof.Machine

/-- `INIT` (41_mixer.md R110): the lanes from the three parameters and the seed, the cursor at the start. -/
def execInit (s : State) : Host.Outcome State Fault Refusal :=
  .next { s with
    h := { h0 := s.params.p1, h1 := s.params.p2, h2 := s.params.p3, h3 := s.a }
    l := s.n, off := 0, i := 0, ph := Phase.bulk }

/-- One word step of `BULK` (41_mixer.md R111): word `w` into lane `k` and the next one; after the fourth word of the block
the cursor moves by 32 and `i` returns to 0. -/
def State.absorb (s : State) (k : Fin 4) (w : Word) : State :=
  { s with
    h := absorbWord s.params.p1 s.h k w
    off := if s.i = 3 then s.off + 32 else s.off
    l := if s.i = 3 then s.l - 32 else s.l
    i := if s.i = 3 then 0 else s.i + 1
    ph := Phase.bulk }

/-- `BULK` (41_mixer.md R111): at a block boundary with fewer than 32 bytes left only `PH` changes; else word `i` of the block
is absorbed, and the cursor moves after the fourth word. -/
def execBulk (s : State) : Host.Outcome State Fault Refusal :=
  if s.i = 0 ∧ s.l.toNat < Config.block then .next { s with ph := Phase.leninj }
  else
    match laneOf? s.i with
    | none => .fault .bulkLane
    | some k =>
      withRead (s.memRead8 (bulkAddress s.off s.i)) fun w => .next (s.absorb k w)

/-- `LENINJ` (41_mixer.md R112): the original length with its halves exchanged is added to lane 0. -/
def execLeninj (s : State) : Host.Outcome State Fault Refusal :=
  .next { s with h := { s.h with h0 := s.h.h0 + halfSwap s.n }, ph := Phase.oddb }

/-- `ODDB` (41_mixer.md R113): an odd remainder gives one byte, the first of the tail, to lane 0. -/
def execOddb (s : State) : Host.Outcome State Fault Refusal :=
  if s.l.getLsbD 0 then
    withRead (s.memRead1 s.off.toNat) fun b =>
      .next { s with
        h := { s.h with h0 := s.h.h0 ^^^ zext64 b }
        off := s.off + 1, l := s.l - 1, ph := Phase.fin0 }
  else .next { s with ph := Phase.fin0 }

/-- `FIN0` (41_mixer.md R114): lane 0 is finalised, for every input; `i <- 1` prepares `CHUNK8`. -/
def execFin0 (s : State) : Host.Outcome State Fault Refusal :=
  .next { s with h := { s.h with h0 := mixfin s.h.h0 s.params.p2 }, i := 1, ph := Phase.chunk8 }

/-- `CHUNK8` (41_mixer.md R115): one 8-byte chunk into lane `i`, `LANE_INDEX` where `i` names no lane, or the exit. -/
def execChunk8 (s : State) : Host.Outcome State Fault Refusal :=
  if Config.word ≤ s.l.toNat then
    match laneOf? s.i with
    | none => .next (s.raise .laneIndex)
    | some k =>
      withRead (s.memRead8 s.off.toNat) fun w =>
        .next { s with
          h := s.h.set k (mixfin (s.h.get k ^^^ w) s.params.p2)
          off := s.off + 8, l := s.l - 8, i := s.i + 1, ph := Phase.chunk8 }
  else .next { s with i := 0, ph := Phase.tail2 }

/-- One fold of `TAIL2`: the value `v` of `c` bytes into lane `k` (41_mixer.md R116). -/
def State.foldTail (s : State) (k : Fin 4) (v c : Word) : State :=
  { s with
    h := s.h.set k (mixfin (s.h.get k ^^^ v) s.params.p3)
    off := s.off + c, l := s.l - c, i := s.i + 1, ph := Phase.tail2 }

/-- `TAIL2` (41_mixer.md R116): two bytes (or the single last one, 90_conflicts.md C5) into lane `i`, `LANE_INDEX` where `i`
names no lane, or the exit, which leaves `i`. -/
def execTail2 (s : State) : Host.Outcome State Fault Refusal :=
  if 0 < s.l.toNat then
    match laneOf? s.i with
    | none => .next (s.raise .laneIndex)
    | some k =>
      if 2 ≤ s.l.toNat then
        withRead (s.memRead2 s.off.toNat) fun v => .next (s.foldTail k (zext64 v) 2)
      else
        withRead (s.memRead1 s.off.toNat) fun v => .next (s.foldTail k (zext64 v) 1)
  else .next { s with ph := Phase.combine }

end Sys2Proof.Machine
end

