-- ==== Sys2Proof/Machine/Dispatch.lean ====
section
/-! DEFINITION. The dispatch: one arm per operation of the opcode table, each one direct call of its meaning. -/

namespace Sys2Proof.Machine

def exec (i : Instr) (s : State) : Host.Outcome State Fault Refusal :=
  match i with
  -- format CMD
  | .ldle64 => Sys2Proof.Machine.execLdle64 s
  | .hash64 => Sys2Proof.Machine.execHash64 s
  -- format PH
  | .init => Sys2Proof.Machine.execInit s
  | .bulk => Sys2Proof.Machine.execBulk s
  | .leninj => Sys2Proof.Machine.execLeninj s
  | .oddb => Sys2Proof.Machine.execOddb s
  | .fin0 => Sys2Proof.Machine.execFin0 s
  | .chunk8 => Sys2Proof.Machine.execChunk8 s
  | .tail2 => Sys2Proof.Machine.execTail2 s
  | .combine => Sys2Proof.Machine.execCombine s
  | .aval => Sys2Proof.Machine.execAval s
  | .ret => Sys2Proof.Machine.execRet s
  | .ldw => Sys2Proof.Machine.execLdw s

end Sys2Proof.Machine
end

