-- ==== Sys2Proof/Machine/Turns.lean ====
section
/-! DEFINITION. What one turn does: the sequencer's (30_encoding.md R80) and the host's (70_reset_and_hazards.md R203). They
happen one at a time (60_exceptions.md R177). -/

namespace Sys2Proof.Machine

/-- The sequencer's turn: the micro-operation `PH` selects, refused where the host does not keep its duty that `N` is the true
length of the sequence (70_reset_and_hazards.md R206 a; log 21). In `IDLE` and `FAULTED` it has no step and nothing changes
(43_hash64_sequence.md R141); a reserved code is stuck (30_encoding.md R81 b). -/
def sequencerTurn (s : State) : Host.Outcome State Fault Refusal :=
  match decodePhase s.ph with
  | .ok i => if s.lengthIsTrue then exec i s else .refused .lengthNotTrue
  | .error .idlePhase => .next s
  | .error .faultedPhase => .next s
  | .error _ => .fault .reservedPhase

/-- The host's START: the three inputs are presented and sampled together and the word is decoded (70_reset_and_hazards.md
R204, 30_encoding.md R80). -/
def startMove (s : State) (cmd : BitVec 8) (arg len : Word) : Host.Outcome State Fault Refusal :=
  let s := { s with ports := { cmd := cmd, arg := arg, len := len } }
  match decodeCmd s.ports.cmd with
  | .ok i => exec i s
  | .error _ => .next s.startIllegal

/-- The host reads `RES`: its bits while `DONE = 1`, else a free value (70_reset_and_hazards.md R205; log 4). -/
def readRes (s : State) : State :=
  if s.done then { s with observed := .res s.res :: s.observed }
  else { s with observed := .res (Config.freeWord s.freeCount) :: s.observed, freeCount := s.freeCount + 1 }

/-- The host connects a sequence to the DATA port, a liberty only while `BUSY = 0` (70_reset_and_hazards.md R203, R206;
93_implementation_defined.md U7, U8; log 7). -/
def setDataMove (s : State) (bytes : List Byte) : Host.Outcome State Fault Refusal :=
  if s.busy then .refused .dataChangedWhileBusy
  else if WellFormed.sequence bytes then .next { s with data := Memory.ofBytes bytes }
  else .refused .dataTooLong

/-- One move of the host (70_reset_and_hazards.md R203). -/
def hostMove (m : HostMove) (s : State) : Host.Outcome State Fault Refusal :=
  match m with
  | .start cmd arg len => startMove s cmd arg len
  | .readStatus => .next { s with observed := .status s.status :: s.observed }
  | .readRes => .next (readRes s)
  | .reset => .next s.resetEvent
  | .setData bytes => setDataMove s bytes

/-- One turn. With no move of the host left the sequencer has the turn (70_reset_and_hazards.md R211, weak fairness); while
the host waits, the sequencer has it until `BUSY = 0` (R202). -/
def takeTurn (s : State) : Host.Outcome State Fault Refusal :=
  match s.turns with
  | [] => sequencerTurn s
  | .sequencer :: rest => sequencerTurn { s with turns := rest }
  | .waitIdle :: rest => if s.busy then sequencerTurn s else .next { s with turns := rest }
  | .host m :: rest => hostMove m { s with turns := rest }

/-- A word of the opcode table put where the next turn takes its operation from: a command word into a START move that
presents the operands now on the ports, a phase code into `PH` (log 12, 14). -/
def placeCode (s : State) : Code → State
  | .cmd w => { s with turns := .host (.start w s.ports.arg s.ports.len) :: s.turns }
  | .ph c => { s with ph := c, turns := .sequencer :: s.turns }

end Sys2Proof.Machine
end

