-- ==== Sys2Proof/Machine/Step.lean ====
section
/-! DEFINITION. The step of the machine: one turn (70_reset_and_hazards.md R203). Three outcomes: a next state, a fault (the
machine is stuck), a refusal (the host broke a duty). -/

namespace Sys2Proof.Machine

def step (s : State) : Host.Outcome State Fault Refusal := takeTurn s

/-- The state whose very next step runs the operation with this word of the opcode table. -/
def State.withFetchWord (s : State) (nbits w : Nat) : State := placeCode s (tableCode nbits w)

end Sys2Proof.Machine
end

