-- ==== Sys2Proof/Machine/Accesses.lean ====
section
/-! DEFINITION. Which offsets of DATA the next micro-operation reads: the table of 20_memory.md R57. No step calls this; the
statements say that the meanings read nothing else, and what a whole run reads (R59). -/

namespace Sys2Proof.Machine

/-- The effective address and the width of the access (20_memory.md R57); width 0 where the operation reads nothing. -/
def State.accessSpan (s : State) : Nat × Nat :=
  match decodePhase s.ph with
  | .ok .bulk => if s.i = 0 ∧ s.l.toNat < 32 then (0, 0) else (s.off.toNat + 8 * s.i.toNat, 8)
  | .ok .oddb => if s.l.toNat % 2 = 1 then (s.off.toNat, 1) else (0, 0)
  | .ok .chunk8 => if 8 ≤ s.l.toNat then (s.off.toNat, 8) else (0, 0)
  | .ok .tail2 =>
    if 2 ≤ s.l.toNat then (s.off.toNat, 2) else if s.l.toNat = 1 then (s.off.toNat, 1) else (0, 0)
  | .ok .ldw => if s.a.toNat + 8 ≤ s.n.toNat then (s.a.toNat, 8) else (0, 0)
  | _ => (0, 0)

/-- The offsets read, in ascending order. -/
def State.accessed (s : State) : List Nat := List.range' s.accessSpan.1 s.accessSpan.2

end Sys2Proof.Machine
end

