-- ==== Sys2Proof/Machine/Hash64.lean ====
section
/-! DEFINITION. The reference functions the spec defines the block by: `LE64` (40_loader.md R100) and `Hash64`
(43_hash64_sequence.md R142), as pure functions of a byte sequence. No step of the machine calls them; the statements say
that the machine computes them (R143). -/

namespace Sys2Proof.Machine

/-- The source's load of the 8 bytes from an offset on, each zero-extended (40_loader.md R100); no value where fewer than 8
bytes are available. -/
def le64 (bytes : List Byte) (a : Nat) : Option Word :=
  match bytes.drop a with
  | b0 :: b1 :: b2 :: b3 :: b4 :: b5 :: b6 :: b7 :: _ =>
    some (zext64 b0 ||| (zext64 b1 <<< 8) ||| (zext64 b2 <<< 16) ||| (zext64 b3 <<< 24) |||
      (zext64 b4 <<< 32) ||| (zext64 b5 <<< 40) ||| (zext64 b6 <<< 48) ||| (zext64 b7 <<< 56))
  | _ => none

/-- `rd8`, `rd2`, `rd1` of R142: `n` bytes from offset `a` as a little-endian number. R142 only reads inside the sequence
(R147). -/
def rdBytes (bytes : List Byte) (a n : Nat) : Word :=
  ((bytes.drop a).take n).foldr (fun b r => zext64 b ||| (r <<< 8)) 0

/-- One block of step 2: the four words in order (43_hash64_sequence.md R142). -/
def refBlock (p : Config.Params) (bytes : List Byte) (off : Nat) (h : Lanes) : Lanes :=
  let w0 := rdBytes bytes off 8
  let h := { h with h0 := (h.h0 ^^^ w0) * p.p1, h1 := h.h1 ^^^ rotl64 w0 40 }
  let w1 := rdBytes bytes (off + 8) 8
  let h := { h with h1 := (h.h1 ^^^ w1) * p.p1, h2 := h.h2 ^^^ rotl64 w1 40 }
  let w2 := rdBytes bytes (off + 16) 8
  let h := { h with h2 := (h.h2 ^^^ w2) * p.p1, h3 := h.h3 ^^^ rotl64 w2 40 }
  let w3 := rdBytes bytes (off + 24) 8
  { h with h3 := (h.h3 ^^^ w3) * p.p1, h0 := h.h0 ^^^ rotl64 w3 40 }

/-- Step 2: so many blocks from an offset on. -/
def refBlocks (p : Config.Params) (bytes : List Byte) : Nat → Nat → Lanes → Lanes
  | 0, _, h => h
  | k + 1, off, h => refBlocks p bytes k (off + 32) (refBlock p bytes off h)

/-- Step 6: so many chunks from an offset on, the first into lane `i`. -/
def refChunks (p : Config.Params) (bytes : List Byte) : Nat → Nat → Fin 4 → Lanes → Lanes
  | 0, _, _, h => h
  | k + 1, off, i, h =>
    refChunks p bytes k (off + 8) (i + 1) (h.set i (mixfin (h.get i ^^^ rdBytes bytes off 8) p.p2))

/-- Step 7: so many byte pairs from an offset on, the first into lane `i`. -/
def refPairs (p : Config.Params) (bytes : List Byte) : Nat → Nat → Fin 4 → Lanes → Lanes
  | 0, _, _, h => h
  | k + 1, off, i, h =>
    refPairs p bytes k (off + 2) (i + 1) (h.set i (mixfin (h.get i ^^^ rdBytes bytes off 2) p.p3))

/-- The tail left for step 6, `e = r - (r mod 2)` with `r = N mod 32` (43_hash64_sequence.md R142). -/
def evenTail (n : Nat) : Nat := n % 32 - n % 32 % 2

/-- The lanes after steps 1 to 7, in R142's closed form: `floor(N / 32)` blocks, `floor(e / 8)` chunks, `(e mod 8) / 2` pairs.
The single-byte fold of step 7 is the branch that is never taken (90_conflicts.md C5). -/
def refLanes (p : Config.Params) (bytes : List Byte) (seed : Word) : Lanes :=
  let n := bytes.length
  let h : Lanes := { h0 := p.p1, h1 := p.p2, h2 := p.p3, h3 := seed }
  let h := refBlocks p bytes (n / 32) 0 h
  let off := 32 * (n / 32)
  let nw := BitVec.ofNat 64 n
  let h := { h with h0 := h.h0 + ((nw <<< 32) ||| (nw >>> 32)) }
  let h := if n % 2 = 1 then { h with h0 := h.h0 ^^^ rdBytes bytes off 1 } else h
  let off := off + n % 2
  let h := { h with h0 := mixfin h.h0 p.p2 }
  let h := refChunks p bytes (evenTail n / 8) off 1 h
  let off := off + 8 * (evenTail n / 8)
  refPairs p bytes (evenTail n % 8 / 2) off 0 h

/-- `Hash64(bytes, seed)` (43_hash64_sequence.md R142). -/
def hash64 (p : Config.Params) (bytes : List Byte) (seed : Word) : Word :=
  let h := refLanes p bytes seed
  let x := seed
  let x := x ^^^ (h.h0 * ((h.h2 >>> 32) ||| 1))
  let x := x ^^^ (h.h1 * ((h.h3 >>> 32) ||| 1))
  let x := x ^^^ (h.h2 * ((h.h0 >>> 32) ||| 1))
  let x := x ^^^ (h.h3 * ((h.h1 >>> 32) ||| 1))
  let x := x ^^^ (x >>> 27)
  let x := x * 0x3C79AC492BA7B653
  let x := x ^^^ (x >>> 33)
  let x := x * 0x1C69B3F74AC4AE35
  x ^^^ (x >>> 27)

/-- Micro-operations of a `HASH64` run on `n` bytes (43_hash64_sequence.md R148). -/
def hashSteps (n : Nat) : Nat := 10 + 4 * (n / 32) + evenTail n / 8 + evenTail n % 8 / 2

end Sys2Proof.Machine
end

