-- ==== Sys2Proof/Machine/Program.lean ====
section
/-! DEFINITION. The spec's notation for programs of host moves (30_encoding.md R83), as the turns they stand for. -/

namespace Sys2Proof.Machine

/-- One line of a program (30_encoding.md R83). -/
inductive HostLine where
  | data (bytes : List Byte)   -- .data: sets DATA and LEN
  | nodata                     -- .nodata: absent sequence, LEN = 0 (43_hash64_sequence.md R151)
  | ldle64 (offset : Word)     -- LDLE64 <offset>
  | hash64 (seed : Word)       -- HASH64 <seed>
  | reset                      -- RESET
  deriving DecidableEq, Repr

/-- One command line: START, wait until `BUSY = 0`, then read `STATUS` and `RES` (30_encoding.md R83, in the order of
70_reset_and_hazards.md R202; log 16). -/
def commandTurns (cmd : BitVec 8) (arg len : Word) : List Turn :=
  [.host (.start cmd arg len), .waitIdle, .host .readStatus, .host .readRes]

/-- The turns of a program, with the length now in force. -/
def programTurns (len : Word) : List HostLine → List Turn
  | [] => []
  | .data bytes :: rest => .host (.setData bytes) :: programTurns (BitVec.ofNat 64 bytes.length) rest
  | .nodata :: rest => .host (.setData []) :: programTurns 0 rest
  | .ldle64 offset :: rest => commandTurns 0x01 offset len ++ programTurns len rest
  | .hash64 seed :: rest => commandTurns 0x02 seed len ++ programTurns len rest
  | .reset :: rest => .host .reset :: programTurns len rest

end Sys2Proof.Machine
end

