-- ==== Sys2Proof/Safety.lean ====
section
/-! DEFINITION. What counts as a safe state and a safe run: the invariant of the machine (43_hash64_sequence.md R144, R145,
R146; 10_state.md R29; 60_exceptions.md R171), the host's duty (70_reset_and_hazards.md R206), and the words the statements
use for runs. -/

namespace Sys2Proof.Machine

/-- The outcome with its next state changed by `f`; a stop stays the same stop. -/
def mapNext (f : State → State) : Host.Outcome State Fault Refusal → Host.Outcome State Fault Refusal
  | .next s => .next (f s)
  | .fault r => .fault r
  | .refused r => .refused r

/-- `k` steps of the machine. -/
abbrev run (k : Nat) (s : State) : Host.Outcome State Fault Refusal := Sys2Proof.core.run k s

/-- The next step is the sequencer's: the host has no move, has given the turn away, or waits while `BUSY`. -/
abbrev State.sequencerHasTurn (s : State) : Prop :=
  s.turns = [] ∨ s.turns.head? = some .sequencer ∨ (s.turns.head? = some .waitIdle ∧ s.busy = true)

/-- `PH` holds one of its thirteen named values (10_state.md R27). -/
abbrev State.phaseOk (s : State) : Prop := s.ph.toNat ≤ 11 ∨ s.ph = Phase.faulted

/-- The cursor, the remainder and the lane index at each phase (43_hash64_sequence.md R144, R145, R146). -/
abbrev State.cursorOk (s : State) : Prop :=
  (s.ph = Phase.bulk →
    s.off.toNat + s.l.toNat = s.n.toNat ∧ s.l.toNat % 32 = s.n.toNat % 32 ∧ s.i.toNat ≤ 3 ∧
      (s.i ≠ 0 → 32 ≤ s.l.toNat)) ∧
  (s.ph = Phase.leninj ∨ s.ph = Phase.oddb →
    s.off.toNat + s.l.toNat = s.n.toNat ∧ s.l.toNat = s.n.toNat % 32) ∧
  (s.ph = Phase.fin0 →
    s.off.toNat + s.l.toNat = s.n.toNat ∧ s.l.toNat = evenTail s.n.toNat) ∧
  (s.ph = Phase.chunk8 →
    s.off.toNat + s.l.toNat = s.n.toNat ∧ 1 ≤ s.i.toNat ∧ s.l.toNat + 8 * s.i.toNat = evenTail s.n.toNat + 8) ∧
  (s.ph = Phase.tail2 →
    s.off.toNat + s.l.toNat = s.n.toNat ∧ s.l.toNat + 2 * s.i.toNat = evenTail s.n.toNat % 8) ∧
  (s.ph = Phase.combine ∨ s.ph = Phase.aval ∨ s.ph = Phase.ret →
    s.off.toNat = s.n.toNat ∧ s.l.toNat = 0)

/-- `DONE` only in `IDLE`; `FCODE` is 0 exactly while no fault was taken since reset, else 1 to 4 (10_state.md R29,
60_exceptions.md R171). -/
abbrev State.statusOk (s : State) : Prop :=
  (s.done = true → s.ph = Phase.idle) ∧ (s.fcode ≠ 0 ↔ s.ph = Phase.faulted) ∧ s.fcode.toNat ≤ 4

/-- The invariant of the machine. -/
abbrev State.Inv (s : State) : Prop :=
  s.phaseOk ∧ s.cursorOk ∧ s.statusOk ∧ WellFormed.params s.params = true ∧ s.data.wf

/-- The host keeps its duty (70_reset_and_hazards.md R206 a): while `BUSY`, `N` is the true length of the sequence the DATA port
serves. At `IDLE` and `FAULTED` nothing is asked. -/
def State.served (s : State) : Prop :=
  s.busy = true → s.lengthIsTrue = true

/-- The offsets of DATA that the first `k` steps from a state read, in order (20_memory.md R57, R59). -/
def readTrace : Nat → State → List Nat
  | 0, _ => []
  | k + 1, s =>
    match step s with
    | .next t => s.accessed ++ readTrace k t
    | .fault _ => []
    | .refused _ => []

end Sys2Proof.Machine
end

