-- ==== Sys2Proof/Certificates/Slice0/Obligations.lean ====
section
/-! DEFINITION. The statements for the provers: what the spec's numbered rules say the operations and the machine do. -/

open Sys2Proof Sys2Proof.Machine

/-! ## Encoding -/

/-- 30_encoding.md R76: a command word is matched whole; `0x01` and `0x02` are the only two. -/
def Obligations.CommandWordsDecode : Prop :=
  ∀ (w : BitVec 8) (i : Instr),
    decodeCmd w = .ok i ↔ (w = 0x01 ∧ i = .ldle64) ∨ (w = 0x02 ∧ i = .hash64)

/-- 30_encoding.md R78: the eleven phase codes and their operations; 0, 12 to 14 and 15 are none. -/
def Obligations.PhaseCodesDecode : Prop :=
  ∀ (c : BitVec 4) (i : Instr), decodePhase c = .ok i ↔
    (c.toNat, i) ∈ [(1, Instr.init), (2, .bulk), (3, .leninj), (4, .oddb), (5, .fin0), (6, .chunk8), (7, .tail2),
      (8, .combine), (9, .aval), (10, .ret), (11, .ldw)]

/-- Decoding and encoding agree, on codes and on bytes, in both directions. That a phase code in a byte stands under four
zero bits is the model's choice (log 13). -/
def Obligations.DecodeEncodeAgree : Prop :=
  (∀ i : Instr, WellFormed.instr i = true → decode (encode i) = .ok i) ∧
  (∀ (c : Code) (i : Instr), decode c = .ok i → encode i = c) ∧
  (∀ (i : Instr) (rest : List Byte), decodeBytes i.format (encodeBytes i ++ rest) = .ok (i, rest)) ∧
  (∀ (f : Format) (bs rest : List Byte) (i : Instr),
    decodeBytes f bs = .ok (i, rest) → i.format = f ∧ bs = encodeBytes i ++ rest)

/-! ## Turns: the step runs the decoded operation -/

/-- 30_encoding.md R80: while `PH` is in 1 to 11 the sequencer's turn performs the one micro-operation whose code `PH`
holds, where the host keeps its duty that `N` is the true length of the sequence (70_reset_and_hazards.md R206 a); where it does
not, the turn is refused. How a turn comes to the sequencer is the model's form of the interleaving (log 5, 15), and the
refusal its form of saying nothing of such a run (log 21). -/
def Obligations.StepRunsThePhaseOperation : Prop :=
  ∀ (s : State) (i : Instr), decodePhase s.ph = .ok i →
    (s.lengthIsTrue = true →
      (s.turns = [] → step s = exec i s) ∧
      (∀ rest, s.turns = .sequencer :: rest → step s = exec i { s with turns := rest }) ∧
      (∀ rest, s.turns = .waitIdle :: rest → step s = exec i s)) ∧
    (s.lengthIsTrue = false → s.sequencerHasTurn → step s = .refused .lengthNotTrue)

/-- 70_reset_and_hazards.md R204, 30_encoding.md R80: the host's START presents the three inputs and runs the command its
word decodes to. -/
def Obligations.StepRunsTheStartedCommand : Prop :=
  ∀ (s : State) (rest : List Turn) (cmd : BitVec 8) (arg len : Word) (i : Instr),
    s.turns = .host (.start cmd arg len) :: rest → decodeCmd cmd = .ok i →
    step s = exec i { s with turns := rest, ports := { cmd := cmd, arg := arg, len := len } }

/-- The sequencer's turn in the phases where the spec gives it no step (43_hash64_sequence.md R141, 30_encoding.md R81). In
`IDLE` and `FAULTED` such a turn answers a next state in which nothing but the turn changed: DESIGN CHOICE of log 5, where
the spec has no step. A reserved code is stuck, which the model says by a fault (log 11). -/
def Obligations.SequencerWithoutStep : Prop :=
  ∀ s : State,
    (s.turns = [] →
      (s.ph = 0 ∨ s.ph = 15 → step s = .next s) ∧
      (s.ph = 12 ∨ s.ph = 13 ∨ s.ph = 14 → step s = .fault .reservedPhase)) ∧
    (∀ rest, s.turns = .sequencer :: rest →
      (s.ph = 0 ∨ s.ph = 15 → step s = .next { s with turns := rest }) ∧
      (s.ph = 12 ∨ s.ph = 13 ∨ s.ph = 14 → step s = .fault .reservedPhase))

/-- 70_reset_and_hazards.md R202 step 3: the host's wait ends exactly when `BUSY = 0`. The wait as a turn is the model's
(log 15). -/
def Obligations.WaitEndsWhenNotBusy : Prop :=
  ∀ (s : State) (rest : List Turn), s.turns = .waitIdle :: rest →
    (s.ph = 0 ∨ s.ph = 15 → step s = .next { s with turns := rest }) ∧
    (∀ t, step s = .next t → s.ph ≠ 0 → s.ph ≠ 15 → t.turns = .waitIdle :: rest)

/-! ## START -/

/-- 70_reset_and_hazards.md R204, the whole of it, for every phase and every command word. -/
def Obligations.StartMoveFollowsItsPseudocode : Prop :=
  ∀ (s : State) (rest : List Turn) (cmd : BitVec 8) (arg len : Word),
    s.turns = .host (.start cmd arg len) :: rest →
    let p : State := { s with turns := rest, ports := { cmd := cmd, arg := arg, len := len } }
    (s.ph = 15 → step s = .next p) ∧
    (s.ph ≠ 15 → s.ph ≠ 0 → step s = .next { p with fcode := 4, done := false, ph := 15 }) ∧
    (s.ph = 0 → cmd = 0x02 → step s = .next { p with a := arg, n := len, done := false, ph := 1 }) ∧
    (s.ph = 0 → cmd = 0x01 → step s = .next { p with a := arg, n := len, done := false, ph := 11 }) ∧
    (s.ph = 0 → cmd ≠ 0x02 → cmd ≠ 0x01 → step s = .next { p with fcode := 1, done := false, ph := 15 })

/-- 40_loader.md R101, 43_hash64_sequence.md R140: what the two commands do when START is made in `IDLE`. -/
def Obligations.CommandsStartInIdle : Prop :=
  ∀ s : State, s.ph = 0 →
    exec .ldle64 s = .next { s with a := s.ports.arg, n := s.ports.len, done := false, ph := 11 } ∧
    exec .hash64 s = .next { s with a := s.ports.arg, n := s.ports.len, done := false, ph := 1 }

/-- 60_exceptions.md R175 and R180 for the two commands: `PROTOCOL` while `BUSY`, nothing in `FAULTED`. -/
def Obligations.CommandsOutsideIdle : Prop :=
  ∀ (s : State) (i : Instr), i = .ldle64 ∨ i = .hash64 →
    (s.ph ≠ 0 → s.ph ≠ 15 → exec i s = .next { s with fcode := 4, done := false, ph := 15 }) ∧
    (s.ph = 15 → exec i s = .next s)

/-- 60_exceptions.md R173: any of the 254 other words raises `ILLEGAL_CMD` in `IDLE`; nothing is latched. -/
def Obligations.IllegalCommandLatchesNothing : Prop :=
  ∀ (s : State) (rest : List Turn) (cmd : BitVec 8) (arg len : Word),
    s.turns = .host (.start cmd arg len) :: rest → s.ph = 0 → cmd ≠ 0x01 → cmd ≠ 0x02 →
    ∃ t, step s = .next t ∧ t.fcode = 1 ∧ t.done = false ∧ t.ph = 15 ∧ t.a = s.a ∧ t.n = s.n ∧ t.h = s.h ∧
      t.l = s.l ∧
      t.off = s.off ∧ t.i = s.i ∧ t.x = s.x ∧ t.res = s.res

/-! ## Faults and reset -/

/-- 60_exceptions.md R178: whenever a step takes a fault, `FCODE`, `DONE` and `PH` are written and no other register; the code
is the one R171 gives the raiser. -/
def Obligations.FaultEntryWritesThreeRegisters : Prop :=
  ∀ s t : State, step s = .next t → s.ph ≠ 15 → t.ph = 15 →
    t.done = false ∧ t.h = s.h ∧ t.a = s.a ∧ t.n = s.n ∧ t.l = s.l ∧ t.off = s.off ∧ t.i = s.i ∧ t.x = s.x ∧
      t.res = s.res ∧ t.params = s.params ∧ t.data = s.data ∧ t.observed = s.observed ∧ t.freeCount = s.freeCount ∧
      ((∃ cmd arg len rest, s.turns = .host (.start cmd arg len) :: rest ∧
          ((s.ph = 0 ∧ t.fcode = 1 ∧ cmd ≠ 0x01 ∧ cmd ≠ 0x02) ∨ (s.ph ≠ 0 ∧ t.fcode = 4))) ∨
        (s.sequencerHasTurn ∧ s.ph = 11 ∧ t.fcode = 2 ∧ s.n.toNat < s.a.toNat + 8) ∨
        (s.sequencerHasTurn ∧ t.fcode = 3 ∧ 3 < s.i.toNat ∧
          ((s.ph = 6 ∧ 8 ≤ s.l.toNat) ∨ (s.ph = 7 ∧ 0 < s.l.toNat))))

/-- 60_exceptions.md R180: a fault is sticky; every move but reset leaves the registers as they are, and reset leaves
`FAULTED` and clears `FCODE`. -/
def Obligations.OnlyResetLeavesFaulted : Prop :=
  ∀ s : State, s.ph = 15 →
    (∀ t, step s = .next t → s.turns.head? ≠ some (.host .reset) →
      t.ph = 15 ∧ t.fcode = s.fcode ∧ t.done = s.done ∧ t.h = s.h ∧ t.a = s.a ∧ t.n = s.n ∧ t.l = s.l ∧
        t.off = s.off ∧ t.i = s.i ∧ t.x = s.x ∧ t.res = s.res) ∧
    (∀ rest, s.turns = .host .reset :: rest → ∃ t, step s = .next t ∧ t.ph = 0 ∧ t.fcode = 0)

/-- 70_reset_and_hazards.md R200: the reset event, in any phase; the parameters and DATA are no part of it (10_state.md R39).
That the remaining registers take free values is the model's form of "unspecified" (log 3); nothing is said of them here. -/
def Obligations.ResetEventFromAnyPhase : Prop :=
  ∀ (s : State) (rest : List Turn), s.turns = .host .reset :: rest →
    ∃ t, step s = .next t ∧ t.ph = 0 ∧ t.done = false ∧ t.fcode = 0 ∧ t.status = 0x00 ∧
      t.params = s.params ∧ t.data = s.data

/-- 10_state.md R39: the reset values the spec gives. -/
def Obligations.ResetStateValues : Prop :=
  State.reset.ph = 0 ∧ State.reset.done = false ∧ State.reset.fcode = 0 ∧ State.reset.busy = false ∧
    State.reset.faulted = false ∧ State.reset.status = 0x00

/-! ## Status, and what the host reads -/

/-- 10_state.md R29: the layout of `STATUS`, bit by bit. -/
def Obligations.StatusLayout : Prop :=
  ∀ s : State,
    s.status.getLsbD 0 = decide (s.ph ≠ 0 ∧ s.ph ≠ 15) ∧ s.status.getLsbD 1 = s.done ∧
    s.status.getLsbD 2 = decide (s.ph = 15) ∧ s.status.getLsbD 3 = false ∧
    s.status.extractLsb' 4 3 = s.fcode ∧ s.status.getLsbD 7 = false

/-- 10_state.md R29: `DONE` is set by `RET` and `LDW` alone, and cleared by START in `IDLE`, by every fault entry and by reset;
`FCODE` is written by fault entry alone and cleared by reset alone. -/
def Obligations.DoneAndFcodeWriters : Prop :=
  ∀ s t : State, step s = .next t →
    (t.done = true → s.done = false → s.sequencerHasTurn ∧ (s.ph = 10 ∨ s.ph = 11)) ∧
    ((∃ c a l rest, s.turns = .host (.start c a l) :: rest) → s.ph ≠ 15 → t.done = false) ∧
    (t.ph = 15 → s.ph ≠ 15 → t.done = false) ∧
    (s.turns.head? = some (.host .reset) → t.done = false ∧ t.fcode = 0) ∧
    (t.fcode ≠ s.fcode → (s.ph ≠ 15 ∧ t.ph = 15) ∨ s.turns.head? = some (.host .reset))

/-- 70_reset_and_hazards.md R203, R205: a read of `STATUS` or `RES` hands the host the value and changes no register; while
`DONE = 0` some value is handed over, a free one (log 4). -/
def Obligations.HostReadsStatusAndResult : Prop :=
  ∀ (s : State) (rest : List Turn),
    (s.turns = .host .readStatus :: rest →
      step s = .next { s with turns := rest, observed := .status s.status :: s.observed }) ∧
    (s.turns = .host .readRes :: rest → s.done = true →
      step s = .next { s with turns := rest, observed := .res s.res :: s.observed }) ∧
    (s.turns = .host .readRes :: rest → s.done = false →
      ∃ v, step s = .next { s with turns := rest, observed := .res v :: s.observed, freeCount := s.freeCount + 1 })

/-- 70_reset_and_hazards.md R203, R206: a sequence that fits `LEN` can be connected while `BUSY = 0` and serves byte `k` at
offset `k`; while `BUSY` there is no such move (93_implementation_defined.md U7), and a longer one is not representable (U8).
The refusals are the model's form of both (log 7). -/
def Obligations.HostConnectsData : Prop :=
  ∀ (s : State) (rest : List Turn) (bytes : List Byte), s.turns = .host (.setData bytes) :: rest →
    (s.ph = 0 ∨ s.ph = 15 → bytes.length < 2 ^ 64 →
      ∃ t, step s = .next t ∧ t = { s with turns := rest, data := t.data } ∧ t.data.wf ∧
        ∀ k, t.data.read k = bytes[k]?) ∧
    (s.ph ≠ 0 → s.ph ≠ 15 → step s = .refused .dataChangedWhileBusy) ∧
    (s.ph = 0 ∨ s.ph = 15 → 2 ^ 64 ≤ bytes.length → step s = .refused .dataTooLong)

/-! ## DATA and the loader -/

/-- 20_memory.md R52: `MemRead(a, n)` is the little-endian sum, and it is not performed where `a + n > N`. -/
def Obligations.MemReadIsTheLittleEndianSum : Prop :=
  ∀ (s : State) (a n : Nat), n = 1 ∨ n = 2 ∨ n = 8 →
    (s.n.toNat < a + n → s.memRead a n = .error .outOfBounds) ∧
    (∀ b : Nat → Byte, a + n ≤ s.n.toNat → (∀ k, k < n → s.data.read (a + k) = some (b k)) →
      s.memRead a n = .ok (∑ k ∈ Finset.range n, (b k).toNat * 2 ^ (8 * k)))

/-- The widths see the same bytes; the spec infers it from `MemRead` (20_memory.md, R54, "derived"). -/
def Obligations.MixedWidthReadsAgree : Prop :=
  ∀ (s : State) (a : Nat),
    (∀ v, s.memRead8 a = .ok v → ∀ k, k < 8 → s.memRead1 (a + k) = .ok (v.extractLsb' (8 * k) 8)) ∧
    (∀ v, s.memRead2 a = .ok v → ∃ b0 b1, s.memRead1 a = .ok b0 ∧ s.memRead1 (a + 1) = .ok b1 ∧
      v = b0.setWidth 16 ||| (b1.setWidth 16 <<< 8))

/-- 40_loader.md R105, whose second half the spec infers ("derived"): decoding 8 bytes and taking the bytes of the value
gives them back, and every value is some 8 bytes' value. -/
def Obligations.LoaderRoundTrip : Prop :=
  (∀ bytes : List Byte, bytes.length = 8 → ∃ v, le64 bytes 0 = some v ∧
    ∀ k, k < 8 → bytes[k]? = some (v.extractLsb' (8 * k) 8)) ∧
  (∀ v : Word, ∃ bytes : List Byte, bytes.length = 8 ∧ le64 bytes 0 = some v)

/-- 40_loader.md R100, R103: on a connected sequence with its true length, the 8-byte read is the loader function, defined
exactly where 8 bytes are available. -/
def Obligations.EightByteReadIsTheLoader : Prop :=
  ∀ (s : State) (bytes : List Byte) (a : Nat), s.data = Memory.ofBytes bytes → s.n.toNat = bytes.length →
    ((le64 bytes a).isSome = true ↔ a + 8 ≤ bytes.length) ∧
    ∀ v, s.memRead8 a = .ok v ↔ le64 bytes a = some v

/-- 40_loader.md R102: the encoding of `LDW`, and that it faults exactly when `A + 8 > N` on natural numbers, else delivers
the word. -/
def Obligations.LdwLoadsOrRaisesBounds : Prop :=
  encode .ldw = .ph 11 ∧ ∀ s : State,
    (s.n.toNat < s.a.toNat + 8 → exec .ldw s = .next { s with fcode := 2, done := false, ph := 15 }) ∧
    (∀ v, s.a.toNat + 8 ≤ s.n.toNat → s.memRead8 s.a.toNat = .ok v →
      exec .ldw s = .next { s with res := v, done := true, ph := 0 })

/-! ## The mixer -/

/-- 41_mixer.md R110: `INIT`, its encoding and its effect. -/
def Obligations.InitLoadsLanesAndCursor : Prop :=
  encode .init = .ph 1 ∧ ∀ s : State, ∃ t, exec .init s = .next t ∧
    t.h.get 0 = s.params.p1 ∧ t.h.get 1 = s.params.p2 ∧ t.h.get 2 = s.params.p3 ∧ t.h.get 3 = s.a ∧
    t = { s with h := t.h, l := s.n, off := 0, i := 0, ph := 2 }

/-- 41_mixer.md R111: `BULK`, its encoding, the exit and the word step. -/
def Obligations.BulkAbsorbsAWordOrLeaves : Prop :=
  encode .bulk = .ph 2 ∧ ∀ s : State,
    (s.i = 0 → s.l.toNat < 32 → exec .bulk s = .next { s with ph := 3 }) ∧
    (∀ (k : Fin 4) (w : Word), s.i.toNat = k.val → (s.i = 0 → 32 ≤ s.l.toNat) →
      s.memRead8 (s.off.toNat + 8 * s.i.toNat) = .ok w →
      ∃ t, exec .bulk s = .next t ∧
        t.h.get k = (s.h.get k ^^^ w) * s.params.p1 ∧
        t.h.get (k + 1) = s.h.get (k + 1) ^^^ ((w <<< 40) ||| (w >>> 24)) ∧
        (∀ j, j ≠ k → j ≠ k + 1 → t.h.get j = s.h.get j) ∧
        (k = 3 → t = { s with h := t.h, off := s.off + 32, l := s.l - 32, i := 0, ph := 2 }) ∧
        (k ≠ 3 → t = { s with h := t.h, i := s.i + 1, ph := 2 }))

/-- 41_mixer.md R112: the encoding of `LENINJ`, and that it adds the original length with its 32-bit halves exchanged,
modulo `2^64`. -/
def Obligations.LeninjAddsTheSwappedLength : Prop :=
  encode .leninj = .ph 3 ∧ ∀ s : State, ∃ t, exec .leninj s = .next t ∧
    (t.h.get 0).toNat = ((s.h.get 0).toNat + (s.n.toNat % 2 ^ 32 * 2 ^ 32 + s.n.toNat / 2 ^ 32)) % 2 ^ 64 ∧
    t = { s with h := { s.h with h0 := t.h.get 0 }, ph := 4 }

/-- 41_mixer.md R113: `ODDB`, its encoding, and its effect for an odd and for an even remainder. -/
def Obligations.OddbFoldsOneByteWhenOdd : Prop :=
  encode .oddb = .ph 4 ∧ ∀ s : State,
    (s.l.toNat % 2 = 0 → exec .oddb s = .next { s with ph := 5 }) ∧
    (∀ b : Byte, s.l.toNat % 2 = 1 → s.memRead1 s.off.toNat = .ok b →
      exec .oddb s = .next { s with
        h := { s.h with h0 := s.h.h0 ^^^ b.setWidth 64 }, off := s.off + 1, l := s.l - 1, ph := 5 })

/-- 41_mixer.md R114: the encoding of `FIN0`, and that it multiplies lane 0 by `P2` and folds the product's upper bits in. -/
def Obligations.Fin0FinalisesLaneZero : Prop :=
  encode .fin0 = .ph 5 ∧ ∀ s : State, ∃ t, exec .fin0 s = .next t ∧
    (t.h.get 0).toNat =
      ((s.h.get 0).toNat * s.params.p2.toNat % 2 ^ 64) ^^^ ((s.h.get 0).toNat * s.params.p2.toNat % 2 ^ 64 / 2 ^ 31) ∧
    t = { s with h := { s.h with h0 := t.h.get 0 }, i := 1, ph := 6 }

/-- 41_mixer.md R115: `CHUNK8`, its encoding, the iteration, the assertion on the lane index and the exit. -/
def Obligations.Chunk8AbsorbsAChunkOrLeaves : Prop :=
  encode .chunk8 = .ph 6 ∧ ∀ s : State,
    (s.l.toNat < 8 → exec .chunk8 s = .next { s with i := 0, ph := 7 }) ∧
    (8 ≤ s.l.toNat → 3 < s.i.toNat → exec .chunk8 s = .next { s with fcode := 3, done := false, ph := 15 }) ∧
    (∀ (k : Fin 4) (w : Word), 8 ≤ s.l.toNat → s.i.toNat = k.val → s.memRead8 s.off.toNat = .ok w →
      ∃ t, exec .chunk8 s = .next t ∧
        t.h.get k = ((s.h.get k ^^^ w) * s.params.p2) ^^^ (((s.h.get k ^^^ w) * s.params.p2) >>> 31) ∧
        (∀ j, j ≠ k → t.h.get j = s.h.get j) ∧
        t = { s with h := t.h, off := s.off + 8, l := s.l - 8, i := s.i + 1, ph := 6 })

/-- 41_mixer.md R116: `TAIL2`, its encoding, the fold of two bytes, of a single byte, the assertion on the lane index and
the exit. -/
def Obligations.Tail2FoldsOrLeaves : Prop :=
  encode .tail2 = .ph 7 ∧ ∀ s : State,
    (s.l.toNat = 0 → exec .tail2 s = .next { s with ph := 8 }) ∧
    (0 < s.l.toNat → 3 < s.i.toNat → exec .tail2 s = .next { s with fcode := 3, done := false, ph := 15 }) ∧
    (∀ (k : Fin 4) (b : BitVec 16), 2 ≤ s.l.toNat → s.i.toNat = k.val → s.memRead2 s.off.toNat = .ok b →
      ∃ t, exec .tail2 s = .next t ∧
        t.h.get k = ((s.h.get k ^^^ b.setWidth 64) * s.params.p3) ^^^ (((s.h.get k ^^^ b.setWidth 64) * s.params.p3) >>> 31) ∧
        (∀ j, j ≠ k → t.h.get j = s.h.get j) ∧
        t = { s with h := t.h, off := s.off + 2, l := s.l - 2, i := s.i + 1, ph := 7 }) ∧
    (∀ (k : Fin 4) (b : Byte), s.l.toNat = 1 → s.i.toNat = k.val → s.memRead1 s.off.toNat = .ok b →
      ∃ t, exec .tail2 s = .next t ∧
        t.h.get k = ((s.h.get k ^^^ b.setWidth 64) * s.params.p3) ^^^ (((s.h.get k ^^^ b.setWidth 64) * s.params.p3) >>> 31) ∧
        (∀ j, j ≠ k → t.h.get j = s.h.get j) ∧
        t = { s with h := t.h, off := s.off + 1, l := s.l - 1, i := s.i + 1, ph := 7 })

/-- 60_exceptions.md R172, 93_implementation_defined.md U17: an out-of-bounds read inside the mixer makes the step stick, and a
`BULK` that would select a lane above 3 sticks too (41_mixer.md R118). That it sticks and does not raise is the model's choice
among the two U17 allows (log 9), and for `BULK` the model's own (log 10). -/
def Obligations.MixerNeverAnswersOutOfBounds : Prop :=
  ∀ s : State,
    (¬ (s.i = 0 ∧ s.l.toNat < 32) → 3 < s.i.toNat → exec .bulk s = .fault .bulkLane) ∧
    (¬ (s.i = 0 ∧ s.l.toNat < 32) → s.i.toNat ≤ 3 → s.n.toNat < s.off.toNat + 8 * s.i.toNat + 8 →
      exec .bulk s = .fault .readOutOfBounds) ∧
    (s.l.toNat % 2 = 1 → s.n.toNat < s.off.toNat + 1 → exec .oddb s = .fault .readOutOfBounds) ∧
    (8 ≤ s.l.toNat → s.i.toNat ≤ 3 → s.n.toNat < s.off.toNat + 8 → exec .chunk8 s = .fault .readOutOfBounds) ∧
    (2 ≤ s.l.toNat → s.i.toNat ≤ 3 → s.n.toNat < s.off.toNat + 2 → exec .tail2 s = .fault .readOutOfBounds) ∧
    (s.l.toNat = 1 → s.i.toNat ≤ 3 → s.n.toNat < s.off.toNat + 1 → exec .tail2 s = .fault .readOutOfBounds)

/-! ## The terminal avalanche stage -/

/-- 42_finalizer.md R130: `COMBINE`, its encoding and its effect. -/
def Obligations.CombineFoldsLanesAndSeed : Prop :=
  encode .combine = .ph 8 ∧ ∀ s : State, exec .combine s = .next { s with
    x := s.a ^^^ (s.h.get 0 * ((s.h.get 2 >>> 32) ||| 1)) ^^^ (s.h.get 1 * ((s.h.get 3 >>> 32) ||| 1)) ^^^
      (s.h.get 2 * ((s.h.get 0 >>> 32) ||| 1)) ^^^ (s.h.get 3 * ((s.h.get 1 >>> 32) ||| 1))
    ph := 9 }

/-- 42_finalizer.md R131: `AVAL`, its encoding, its five statements on numbers below `2^64`. -/
def Obligations.AvalMixesX : Prop :=
  encode .aval = .ph 9 ∧ ∀ s : State, ∃ x1 x2 x3 x4 : Nat,
    x1 = s.x.toNat ^^^ (s.x.toNat / 2 ^ 27) ∧
    x2 = x1 * 0x3C79AC492BA7B653 % 2 ^ 64 ∧
    x3 = x2 ^^^ (x2 / 2 ^ 33) ∧
    x4 = x3 * 0x1C69B3F74AC4AE35 % 2 ^ 64 ∧
    exec .aval s = .next { s with x := BitVec.ofNat 64 (x4 ^^^ (x4 / 2 ^ 27)), ph := 10 } ∧
    x4 ^^^ (x4 / 2 ^ 27) < 2 ^ 64

/-- 42_finalizer.md R132: `RET`, its encoding and its effect. -/
def Obligations.RetDeliversTheDigest : Prop :=
  encode .ret = .ph 10 ∧ ∀ s : State, exec .ret s = .next { s with res := s.x, done := true, ph := 0 }

/-- `AVAL` is a bijection of the 64-bit values and maps 0 to 0; the spec infers it (42_finalizer.md, R133, "derived"). -/
def Obligations.AvalancheIsABijection : Prop :=
  Function.Bijective avalanche ∧ avalanche 0 = 0

/-- For odd `P`, `mixfin` is a bijection of the 64-bit values and maps 0 to 0; the spec infers it (41_mixer.md, R119,
"derived"). -/
def Obligations.MixfinIsABijection : Prop :=
  ∀ p : Word, p.getLsbD 0 = true → Function.Bijective (fun v => mixfin v p) ∧ mixfin 0 p = 0

/-- 00_scope.md R16: the rotation as two shifts, the source's equivalence for 40, and that bit `k` becomes bit
`(k + 40) mod 64`. -/
def Obligations.RotateMovesEachBit : Prop :=
  (∀ (v : Word) (n : Nat), 0 < n → n < 64 → rotl64 v n = (v <<< n) ||| (v >>> (64 - n))) ∧
  (∀ w : Word, rotl64 w 40 = (w <<< 40) ||| (w >>> 24)) ∧
  ∀ (v : Word) (k : Nat), k < 64 → (rotl64 v 40).getLsbD ((k + 40) % 64) = v.getLsbD k

/-! ## Frames and whole-machine rules -/

/-- 20_memory.md R51: no operation writes DATA; nor does any touch the parameters or the outside world. -/
def Obligations.NoOperationStores : Prop :=
  ∀ (i : Instr) (s t : State), exec i s = .next t →
    (∀ a, t.data.read a = s.data.read a) ∧ t.data = s.data ∧ t.params = s.params ∧ t.ports = s.ports ∧
      t.turns = s.turns ∧ t.observed = s.observed ∧ t.freeCount = s.freeCount

/-- 10_state.md R36: the write entries of the access matrix; every register an operation's row leaves blank keeps its value. -/
def Obligations.AccessMatrixWrites : Prop :=
  ∀ (i : Instr) (s t : State), exec i s = .next t →
    (i ∉ [Instr.ldle64, .hash64] → t.a = s.a ∧ t.n = s.n) ∧
    (i ∉ [Instr.init, .bulk, .leninj, .oddb, .fin0, .chunk8, .tail2] → t.h = s.h) ∧
    (i ∈ [Instr.leninj, .oddb, .fin0] → t.h.h1 = s.h.h1 ∧ t.h.h2 = s.h.h2 ∧ t.h.h3 = s.h.h3) ∧
    (i = .bulk → ∀ j k : Fin 4, s.i.toNat = k.val → j ≠ k → j ≠ k + 1 → t.h.get j = s.h.get j) ∧
    (i ∈ [Instr.chunk8, .tail2] → ∀ j : Fin 4, s.i.toNat ≠ j.val → t.h.get j = s.h.get j) ∧
    (i ∉ [Instr.init, .bulk, .oddb, .chunk8, .tail2] → t.l = s.l ∧ t.off = s.off) ∧
    (i ∉ [Instr.init, .bulk, .fin0, .chunk8, .tail2] → t.i = s.i) ∧
    (i ∉ [Instr.combine, .aval] → t.x = s.x) ∧
    (i ∉ [Instr.ret, .ldw] → t.res = s.res) ∧
    (t.done ≠ s.done → i ∈ [Instr.ldle64, .hash64, .ret, .ldw] ∨ t.ph = 15) ∧
    (t.fcode ≠ s.fcode → t.ph = 15)

/-- 10_state.md R22, R23: `A` and `N` change by START in `IDLE` and by reset alone; the parameters never change (R31). -/
def Obligations.LatchesAndParametersHold : Prop :=
  ∀ s t : State, step s = .next t →
    t.params = s.params ∧
    (t.a ≠ s.a ∨ t.n ≠ s.n →
      s.turns.head? = some (.host .reset) ∨
      (s.ph = 0 ∧ ∃ cmd arg len, s.turns.head? = some (.host (.start cmd arg len)) ∧ t.a = arg ∧ t.n = len))

/-- 43_hash64_sequence.md R141: the successor of every phase, for every move. A host move other than START and reset, and the
end of a wait, leave the phase (70_reset_and_hazards.md R203). -/
def Obligations.SuccessorOfEveryPhase : Prop :=
  ∀ s t : State, step s = .next t →
    (s.sequencerHasTurn →
      (s.ph = 0 → t.ph = 0) ∧
      (s.ph = 1 → t.ph = 2) ∧
      (s.ph = 2 → t.ph = if s.i = 0 ∧ s.l.toNat < 32 then 3 else 2) ∧
      (s.ph = 3 → t.ph = 4) ∧
      (s.ph = 4 → t.ph = 5) ∧
      (s.ph = 5 → t.ph = 6) ∧
      (s.ph = 6 → t.ph = if 8 ≤ s.l.toNat then (if s.i.toNat ≤ 3 then 6 else 15) else 7) ∧
      (s.ph = 7 → t.ph = if 0 < s.l.toNat then (if s.i.toNat ≤ 3 then 7 else 15) else 8) ∧
      (s.ph = 8 → t.ph = 9) ∧
      (s.ph = 9 → t.ph = 10) ∧
      (s.ph = 10 → t.ph = 0) ∧
      (s.ph = 11 → t.ph = if s.a.toNat + 8 ≤ s.n.toNat then 0 else 15) ∧
      (s.ph = 15 → t.ph = 15)) ∧
    (∀ cmd arg len, s.turns.head? = some (.host (.start cmd arg len)) →
      (s.ph = 0 → t.ph = if cmd = 0x02 then 1 else if cmd = 0x01 then 11 else 15) ∧
      (s.ph ≠ 0 → t.ph = 15)) ∧
    (s.turns.head? = some (.host .reset) → t.ph = 0) ∧
    (∀ m, s.turns.head? = some (.host m) → (∀ cmd arg len, m ≠ .start cmd arg len) → m ≠ .reset → t.ph = s.ph) ∧
    (s.turns.head? = some .waitIdle → s.busy = false → t.ph = s.ph)

/-- The turns are taken in order, and each part of the outside world changes in its own move alone: DATA when the host connects
a sequence, the ports at START, what was observed at a read. The model's form of 70_reset_and_hazards.md R203 (log 5, 8, 15);
fresh free values are drawn by reset and by a read of `RES` alone (log 3, 4). -/
def Obligations.OutsideWorldChangesInItsOwnMove : Prop :=
  ∀ s t : State, step s = .next t →
    t.turns = (if s.turns.head? = some .waitIdle ∧ s.busy = true then s.turns else s.turns.tail) ∧
    ((∀ bytes, s.turns.head? ≠ some (.host (.setData bytes))) → t.data = s.data) ∧
    ((∀ cmd arg len, s.turns.head? ≠ some (.host (.start cmd arg len))) → t.ports = s.ports) ∧
    (s.turns.head? ≠ some (.host .readStatus) → s.turns.head? ≠ some (.host .readRes) → t.observed = s.observed) ∧
    (s.turns.head? ≠ some (.host .reset) → s.turns.head? ≠ some (.host .readRes) → t.freeCount = s.freeCount)

/-- 10_state.md R22: no micro-operation reads the command port, so what the host does to it after START changes nothing. -/
def Obligations.MicroOperationsIgnoreThePorts : Prop :=
  ∀ (i : Instr) (s : State) (q : Ports), i.format = .ph →
    exec i { s with ports := q } = mapNext (fun t => { t with ports := q }) (exec i s)

/-- 20_memory.md R57: an operation reads no byte of DATA outside the access the table gives it: with any other sequence that
agrees there it does the same. -/
def Obligations.ReadsOnlyTheTabledAccess : Prop :=
  ∀ (i : Instr) (s : State) (d : Memory), decodePhase s.ph = .ok i →
    (∀ a, a ∈ s.accessed → d.read a = s.data.read a) →
    exec i { s with data := d } = mapNext (fun t => { t with data := d }) (exec i s)

/-- 70_reset_and_hazards.md R212 (the spec marks it derived): the sequence of phases of a `HASH64` run depends on `N` only,
never on the byte values, the seed or the parameters. -/
def Obligations.ControlDependsOnLengthOnly : Prop :=
  ∀ (i : Instr) (s₁ s₂ t₁ t₂ : State), i.format = .ph → i ≠ .ldw →
    s₁.n = s₂.n → s₁.l = s₂.l → s₁.off = s₂.off → s₁.i = s₂.i →
    exec i s₁ = .next t₁ → exec i s₂ = .next t₂ →
    t₁.ph = t₂.ph ∧ t₁.n = t₂.n ∧ t₁.l = t₂.l ∧ t₁.off = t₂.off ∧ t₁.i = t₂.i

/-- 10_state.md R24, the inference of its last sentences: the cursor advances and is never rewound: `off` up and `l` down by
the same amount. -/
def Obligations.CursorIsNeverRewound : Prop :=
  ∀ s t : State, s.Inv → s.sequencerHasTurn → 2 ≤ s.ph.toNat → s.ph.toNat ≤ 10 → step s = .next t →
    s.off.toNat ≤ t.off.toNat ∧ t.l.toNat ≤ s.l.toNat ∧ t.off.toNat + t.l.toNat = s.off.toNat + s.l.toNat

/-! ## The invariant -/

/-- 43_hash64_sequence.md R144, R145, R146 (the spec marks them derived), 10_state.md R29, 60_exceptions.md R171: every
step, of the sequencer or of the host, keeps the invariant. -/
def Obligations.EveryStepKeepsTheInvariant : Prop :=
  ∀ s t : State, s.Inv → step s = .next t → t.Inv

/-- The reset state meets the invariant. Its parameters are the default ones (log 1): their oddness is part of it. -/
def Obligations.ResetMeetsTheInvariant : Prop :=
  State.reset.Inv

/-- 43_hash64_sequence.md R147 (the spec marks it derived): while the host keeps its duty the sequencer never stops: every
micro-operation completes, the only fault one can take is `BOUNDS` of `LDW`, and the duty stays kept. -/
def Obligations.SequencerNeverStops : Prop :=
  ∀ s : State, s.Inv → s.served → s.sequencerHasTurn →
    ∃ t, step s = .next t ∧ t.Inv ∧ t.served ∧
      (t.ph = 15 → s.ph = 15 ∨ (s.ph = 11 ∧ s.n.toNat < s.a.toNat + 8))

/-! ## Whole commands -/

/-- 43_hash64_sequence.md R143, R148 (the spec marks both derived): from `INIT` on, whatever the registers hold, the run on
a sequence of `N` bytes takes `steps(N)` micro-operations, is busy until the last and then holds `Hash64(bytes, A)`; no
fault is taken. The reference `hash64` is R142's closed form (DEDUCED, log 20), the empty list of turns the sequencer's (log
5). -/
def Obligations.HashRunComputesHash64 : Prop :=
  ∀ (s : State) (bytes : List Byte), s.ph = 1 → s.turns = [] → s.data = Memory.ofBytes bytes →
    bytes.length < 2 ^ 64 → s.n = BitVec.ofNat 64 bytes.length →
    (∀ k, k < hashSteps bytes.length → ∃ u, run k s = .next u ∧ 1 ≤ u.ph.toNat ∧ u.ph.toNat ≤ 10) ∧
    ∃ t, run (hashSteps bytes.length) s = .next t ∧ t.ph = 0 ∧ t.done = true ∧ t.fcode = s.fcode ∧
      t.res = hash64 s.params bytes s.a

/-- 40_loader.md R101: `LDLE64` from START to its end: the word, or `BOUNDS`; the lanes, the cursor, `i` and `x` are not
touched. -/
def Obligations.LoadCommandDeliversTheWord : Prop :=
  ∀ (s : State) (bytes : List Byte) (arg : Word),
    s.ph = 0 → s.fcode = 0 → s.data = Memory.ofBytes bytes → bytes.length < 2 ^ 64 →
    s.turns = [.host (.start 0x01 arg (BitVec.ofNat 64 bytes.length))] →
    ∃ t, run 2 s = .next t ∧ t.h = s.h ∧ t.l = s.l ∧ t.off = s.off ∧ t.i = s.i ∧ t.x = s.x ∧
      (∀ v, le64 bytes arg.toNat = some v → t.res = v ∧ t.done = true ∧ t.ph = 0 ∧ t.status = 0x02) ∧
      (le64 bytes arg.toNat = none → t.ph = 15 ∧ t.done = false ∧ t.fcode = 2 ∧ t.status = 0x24 ∧ t.res = s.res)

/-- 20_memory.md R59 (the spec marks it derived): a `HASH64` run reads every byte of the sequence exactly once, in ascending
order, and nothing else. The count of steps is R148's; the empty list of turns is the sequencer's (log 5). -/
def Obligations.EveryByteIsReadOnce : Prop :=
  ∀ (s : State) (bytes : List Byte), s.ph = 1 → s.turns = [] → s.data = Memory.ofBytes bytes →
    bytes.length < 2 ^ 64 → s.n = BitVec.ofNat 64 bytes.length →
    readTrace (hashSteps bytes.length) s = List.range bytes.length

/-- 43_hash64_sequence.md R153 (the spec marks it derived): on the empty input the run takes ten steps, reads nothing
and gives the stated value. With `N = 0` the true sequence is the empty one (70_reset_and_hazards.md R206 a): nothing is
connected to the DATA port. -/
def Obligations.EmptyInputDigest : Prop :=
  ∀ s : State, s.ph = 1 → s.turns = [] → s.n = 0 → s.data = [] →
    readTrace 10 s = [] ∧
    ∃ t, run 10 s = .next t ∧ t.ph = 0 ∧ t.done = true ∧
      let g := mixfin s.params.p1 s.params.p2
      t.res = avalanche (s.a ^^^ (g * ((s.params.p3 >>> 32) ||| 1)) ^^^ (s.params.p2 * ((s.a >>> 32) ||| 1)) ^^^
        (s.params.p3 * ((g >>> 32) ||| 1)) ^^^ (s.a * ((s.params.p2 >>> 32) ||| 1)))

/-- 70_reset_and_hazards.md R202, R207, 30_encoding.md R83: the whole transaction of a host, from any state at `IDLE` with no
fault recorded: connect the bytes, `HASH64`, wait, read `STATUS` and `RES`. The host gets `0x02` and the digest, and the block
is idle again. The order of the two reads is the model's (log 16), and so are the wait as a turn and the list of what was read
(log 15); the reference `hash64` is R142's closed form (DEDUCED, log 20). -/
def Obligations.HostProgramGetsTheDigest : Prop :=
  ∀ (s : State) (bytes : List Byte) (seed len : Word), s.ph = 0 → s.fcode = 0 → bytes.length < 2 ^ 64 →
    s.turns = programTurns len [.data bytes, .hash64 seed] →
    ∃ t, run (hashSteps bytes.length + 5) s = .next t ∧ t.turns = [] ∧ t.ph = 0 ∧ t.status = 0x02 ∧
      t.observed = .res (hash64 s.params bytes seed) :: .status 0x02 :: s.observed

/-- 10_state.md R38, 43_hash64_sequence.md R150: what a command leaves at the ports depends on `(CMD, ARG, LEN, DATA)` (and the
fixed parameters) alone: two instances at `IDLE` with no fault recorded, whatever else their registers hold, show the same
`STATUS` after every number of steps, and the same `RES` whenever `DONE = 1`. Where `LEN` is not the true length, no
micro-operation runs (log 21). -/
def Obligations.CommandsLeaveNoTrace : Prop :=
  ∀ (s₁ s₂ : State) (cmd : BitVec 8) (arg len : Word) (k : Nat) (t₁ : State),
    s₁.ph = 0 → s₂.ph = 0 → s₁.fcode = 0 → s₂.fcode = 0 → s₁.params = s₂.params → s₁.data = s₂.data →
    s₁.turns = [.host (.start cmd arg len)] → s₂.turns = [.host (.start cmd arg len)] →
    run (k + 1) s₁ = .next t₁ →
    ∃ t₂, run (k + 1) s₂ = .next t₂ ∧ t₂.status = t₁.status ∧ t₂.done = t₁.done ∧ (t₁.done = true → t₂.res = t₁.res)

/-- 70_reset_and_hazards.md R206 (a): the duty is that DATA is a sequence and `N` its true length. Of a command begun without it
the model says nothing: the sequencer's turn is refused, so that until a reset no result is delivered, and what the host can
still see is the block `BUSY`, or `PROTOCOL` after another START. The refusal is the model's form (log 21). -/
def Obligations.WrongLengthGivesNoResult : Prop :=
  (∀ s : State, s.lengthIsTrue = true ↔ ∃ bytes, s.data = Memory.ofBytes bytes ∧ s.n.toNat = bytes.length) ∧
  ∀ s : State, s.busy = true → s.lengthIsTrue = false →
    (s.phaseOk → s.sequencerHasTurn → step s = .refused .lengthNotTrue) ∧
    (∀ t, step s = .next t → s.turns.head? ≠ some (.host .reset) →
      t.res = s.res ∧
        ((t.ph = s.ph ∧ t.lengthIsTrue = false ∧ t.done = s.done) ∨ (t.ph = 15 ∧ t.fcode = 4 ∧ t.done = false)))
end

