-- ==== Sys2Proof/Laws/Memory.lean ====
section
/-! SUPPORT. The laws of DATA: what a laid-out sequence reads as, that it is in canonical form, and what `MemRead` answers. -/

namespace Sys2Proof.Machine

/-- `ofBytesFrom` serves byte `k` of the sequence at offset `a + k`, and nothing else. -/
theorem Memory.read_ofBytesFrom (bytes : List Byte) (a b : Nat) :
    (Memory.ofBytesFrom a bytes).read b = if a ≤ b then bytes[b - a]? else none := by
  induction bytes generalizing a with
  | nil => simp [Memory.ofBytesFrom, Memory.read]
  | cons v bs ih =>
    simp only [Memory.ofBytesFrom, Memory.read, ih]
    by_cases h : b = a
    · simp [h]
    · by_cases hab : a ≤ b
      · obtain ⟨c, rfl⟩ : ∃ c, b = a + 1 + c := ⟨b - (a + 1), by omega⟩
        simp [show a + 1 + c ≠ a by omega, show a ≤ a + 1 + c by omega,
          show a + 1 + c - a = c + 1 by omega]
      · simp [h, hab, show ¬ a + 1 ≤ b by omega]

/-- A laid-out sequence serves byte `k` at offset `k` (20_memory.md R50). -/
@[simp] theorem Memory.read_ofBytes (bytes : List Byte) (a : Nat) : (Memory.ofBytes bytes).read a = bytes[a]? := by
  simp [Memory.ofBytes, Memory.read_ofBytesFrom]

theorem Memory.mem_ofBytesFrom (bytes : List Byte) (a : Nat) (c : Host.Cell)
    (hc : c ∈ Memory.ofBytesFrom a bytes) : a ≤ c.1 ∧ c.1 < a + bytes.length := by
  induction bytes generalizing a with
  | nil => simp [Memory.ofBytesFrom] at hc
  | cons v bs ih =>
    simp only [Memory.ofBytesFrom, List.mem_cons] at hc
    rcases hc with rfl | hc
    · simp
    · have := ih (a + 1) hc
      simp only [List.length_cons]
      omega

/-- The one memory operation keeps the canonical form: a sequence that fits `LEN` is laid out well-formed. -/
theorem Memory.ofBytes_wf (bytes : List Byte) (h : bytes.length < 2 ^ 64) : (Memory.ofBytes bytes).wf := by
  have rising : ∀ (bs : List Byte) (a : Nat), (Memory.ofBytesFrom a bs).Pairwise (fun c d => c.1 < d.1) := by
    intro bs
    induction bs with
    | nil => intro a; exact List.Pairwise.nil
    | cons v bs ih =>
      intro a
      refine List.Pairwise.cons (fun c hc => ?_) (ih (a + 1))
      have := Memory.mem_ofBytesFrom bs (a + 1) c hc
      exact this.1
  refine ⟨rising bytes 0, fun c hc => ?_⟩
  have := Memory.mem_ofBytesFrom bytes 0 c hc
  omega

/-- What `holdsExactly` says: the memory is a sequence laid out from `a` that ends below `n`. -/
theorem Memory.holdsExactly_iff (m : Memory) (a n : Nat) :
    m.holdsExactly a n = true ↔ ∃ bytes, m = Memory.ofBytesFrom a bytes ∧ a + bytes.length = n := by
  induction m generalizing a with
  | nil =>
    simp only [Memory.holdsExactly, beq_iff_eq]
    constructor
    · exact fun h => ⟨[], rfl, h⟩
    · rintro ⟨_ | ⟨b, bs⟩, hm, hn⟩
      · exact hn
      · cases hm
  | cons c m ih =>
    obtain ⟨b, v⟩ := c
    simp only [Memory.holdsExactly, Bool.and_eq_true, beq_iff_eq, ih]
    constructor
    · rintro ⟨rfl, bytes, rfl, hn⟩
      exact ⟨v :: bytes, rfl, by simp only [List.length_cons]; omega⟩
    · rintro ⟨_ | ⟨w, bs⟩, hm, hn⟩
      · cases hm
      · cases hm
        exact ⟨rfl, bs, rfl, by simp only [List.length_cons] at hn; omega⟩

/-- The host's duty R206 (a): the connected memory is a byte sequence and `N` its length (70_reset_and_hazards.md). -/
theorem State.lengthIsTrue_iff (s : State) :
    s.lengthIsTrue = true ↔ ∃ bytes, s.data = Memory.ofBytes bytes ∧ s.n.toNat = bytes.length := by
  simp only [State.lengthIsTrue, Memory.holdsExactly_iff, Memory.ofBytes, Nat.zero_add, eq_comm (a := s.n.toNat)]

/-- With the duty kept every offset below `N` is served. -/
theorem State.read_of_lengthIsTrue (s : State) (h : s.lengthIsTrue = true) (k : Nat) (hk : k < s.n.toNat) :
    (s.data.read k).isSome = true := by
  obtain ⟨bytes, hd, hn⟩ := s.lengthIsTrue_iff.1 h
  simp only [hd, Memory.read_ofBytes]
  simp [show k < bytes.length by omega]

/-- Reset lists nothing. -/
theorem State.reset_data_wf : State.reset.data.wf := by decide

/-- A read of `n` bytes answers exactly when every byte is served. -/
theorem Memory.readLE_ok (m : Memory) (a n : Nat) (h : ∀ k, k < n → (m.read (a + k)).isSome = true) :
    ∃ v, m.readLE a n = .ok v := by
  induction n generalizing a with
  | zero => exact ⟨0, rfl⟩
  | succ n ih =>
    obtain ⟨r, hr⟩ := ih (a + 1) (fun k hk => by
      have := h (k + 1) (by omega)
      rwa [show a + (k + 1) = a + 1 + k by omega] at this)
    obtain ⟨b, hb⟩ := Option.isSome_iff_exists.1 (h 0 (by omega))
    simp only [Nat.add_zero] at hb
    exact ⟨b.toNat + 256 * r, by simp [Memory.readLE, hb, hr]⟩

/-- The little-endian value is below `256^n` (20_memory.md R52). -/
theorem Memory.readLE_lt (m : Memory) (a n v : Nat) (h : m.readLE a n = .ok v) : v < 256 ^ n := by
  induction n generalizing a v with
  | zero =>
    simp only [Memory.readLE, Except.ok.injEq] at h
    simp [← h]
  | succ n ih =>
    simp only [Memory.readLE] at h
    cases hb : m.read a with
    | none => simp [hb] at h
    | some b =>
      cases hr : m.readLE (a + 1) n with
      | error o => simp [hb, hr] at h
      | ok r =>
        simp only [hb, hr, Except.ok.injEq] at h
        have := ih (a + 1) r hr
        have := b.isLt
        rw [Nat.pow_succ]
        omega

/-- Two memories that agree on the bytes read give the same answer. -/
theorem Memory.readLE_congr (m m' : Memory) (a n : Nat) (h : ∀ k, k < n → m'.read (a + k) = m.read (a + k)) :
    m'.readLE a n = m.readLE a n := by
  induction n generalizing a with
  | zero => rfl
  | succ n ih =>
    have h0 := h 0 (by omega)
    simp only [Nat.add_zero] at h0
    have ht := ih (a + 1) (fun k hk => by
      have := h (k + 1) (by omega)
      rwa [show a + (k + 1) = a + 1 + k by omega] at this)
    simp only [Memory.readLE, h0, ht]

/-- Everything `MemRead` can answer with a value (20_memory.md R52, R56). -/
theorem State.memRead_eq_ok (s : State) (a n v : Nat) :
    s.memRead a n = .ok v ↔ a + n ≤ s.n.toNat ∧ s.data.readLE a n = .ok v := by
  unfold State.memRead
  split
  · simp
    omega
  · cases s.data.readLE a n <;> simp
    omega

/-- A read inside the bound of served bytes answers. -/
theorem State.memRead_served (s : State) (a n : Nat) (hb : a + n ≤ s.n.toNat)
    (h : ∀ k, k < s.n.toNat → (s.data.read k).isSome = true) : ∃ v, s.memRead a n = .ok v := by
  obtain ⟨v, hv⟩ := s.data.readLE_ok a n (fun k hk => h (a + k) (by omega))
  exact ⟨v, (s.memRead_eq_ok a n v).2 ⟨hb, hv⟩⟩

end Sys2Proof.Machine
end

