-- ==== Sys2Proof/Laws/State.lean ====
section
/-! SUPPORT. One lemma per field of State for each shared update of it, so that no proof unfolds an update. -/

namespace Sys2Proof.Machine

/-! ## `State.raise` -/

@[simp] theorem State.raise_h (s : State) (c : FaultCode) : (s.raise c).h = s.h := rfl
@[simp] theorem State.raise_a (s : State) (c : FaultCode) : (s.raise c).a = s.a := rfl
@[simp] theorem State.raise_n (s : State) (c : FaultCode) : (s.raise c).n = s.n := rfl
@[simp] theorem State.raise_l (s : State) (c : FaultCode) : (s.raise c).l = s.l := rfl
@[simp] theorem State.raise_off (s : State) (c : FaultCode) : (s.raise c).off = s.off := rfl
@[simp] theorem State.raise_x (s : State) (c : FaultCode) : (s.raise c).x = s.x := rfl
@[simp] theorem State.raise_i (s : State) (c : FaultCode) : (s.raise c).i = s.i := rfl
@[simp] theorem State.raise_ph (s : State) (c : FaultCode) : (s.raise c).ph = Phase.faulted := rfl
@[simp] theorem State.raise_res (s : State) (c : FaultCode) : (s.raise c).res = s.res := rfl
@[simp] theorem State.raise_done (s : State) (c : FaultCode) : (s.raise c).done = false := rfl
@[simp] theorem State.raise_fcode (s : State) (c : FaultCode) : (s.raise c).fcode = c.code := rfl
@[simp] theorem State.raise_params (s : State) (c : FaultCode) : (s.raise c).params = s.params := rfl
@[simp] theorem State.raise_data (s : State) (c : FaultCode) : (s.raise c).data = s.data := rfl
@[simp] theorem State.raise_ports (s : State) (c : FaultCode) : (s.raise c).ports = s.ports := rfl
@[simp] theorem State.raise_turns (s : State) (c : FaultCode) : (s.raise c).turns = s.turns := rfl
@[simp] theorem State.raise_observed (s : State) (c : FaultCode) : (s.raise c).observed = s.observed := rfl
@[simp] theorem State.raise_freeCount (s : State) (c : FaultCode) : (s.raise c).freeCount = s.freeCount := rfl

/-! ## `State.absorb` -/

@[simp] theorem State.absorb_h (s : State) (k : Fin 4) (w : Word) : (s.absorb k w).h = absorbWord s.params.p1 s.h k w := rfl
@[simp] theorem State.absorb_a (s : State) (k : Fin 4) (w : Word) : (s.absorb k w).a = s.a := rfl
@[simp] theorem State.absorb_n (s : State) (k : Fin 4) (w : Word) : (s.absorb k w).n = s.n := rfl
@[simp] theorem State.absorb_l (s : State) (k : Fin 4) (w : Word) : (s.absorb k w).l = if s.i = 3 then s.l - 32 else s.l := rfl
@[simp] theorem State.absorb_off (s : State) (k : Fin 4) (w : Word) : (s.absorb k w).off = if s.i = 3 then s.off + 32 else s.off := rfl
@[simp] theorem State.absorb_x (s : State) (k : Fin 4) (w : Word) : (s.absorb k w).x = s.x := rfl
@[simp] theorem State.absorb_i (s : State) (k : Fin 4) (w : Word) : (s.absorb k w).i = if s.i = 3 then 0 else s.i + 1 := rfl
@[simp] theorem State.absorb_ph (s : State) (k : Fin 4) (w : Word) : (s.absorb k w).ph = Phase.bulk := rfl
@[simp] theorem State.absorb_res (s : State) (k : Fin 4) (w : Word) : (s.absorb k w).res = s.res := rfl
@[simp] theorem State.absorb_done (s : State) (k : Fin 4) (w : Word) : (s.absorb k w).done = s.done := rfl
@[simp] theorem State.absorb_fcode (s : State) (k : Fin 4) (w : Word) : (s.absorb k w).fcode = s.fcode := rfl
@[simp] theorem State.absorb_params (s : State) (k : Fin 4) (w : Word) : (s.absorb k w).params = s.params := rfl
@[simp] theorem State.absorb_data (s : State) (k : Fin 4) (w : Word) : (s.absorb k w).data = s.data := rfl
@[simp] theorem State.absorb_ports (s : State) (k : Fin 4) (w : Word) : (s.absorb k w).ports = s.ports := rfl
@[simp] theorem State.absorb_turns (s : State) (k : Fin 4) (w : Word) : (s.absorb k w).turns = s.turns := rfl
@[simp] theorem State.absorb_observed (s : State) (k : Fin 4) (w : Word) : (s.absorb k w).observed = s.observed := rfl
@[simp] theorem State.absorb_freeCount (s : State) (k : Fin 4) (w : Word) : (s.absorb k w).freeCount = s.freeCount := rfl

/-! ## `State.foldTail` -/

@[simp] theorem State.foldTail_h (s : State) (k : Fin 4) (v c : Word) : (s.foldTail k v c).h = s.h.set k (mixfin (s.h.get k ^^^ v) s.params.p3) := rfl
@[simp] theorem State.foldTail_a (s : State) (k : Fin 4) (v c : Word) : (s.foldTail k v c).a = s.a := rfl
@[simp] theorem State.foldTail_n (s : State) (k : Fin 4) (v c : Word) : (s.foldTail k v c).n = s.n := rfl
@[simp] theorem State.foldTail_l (s : State) (k : Fin 4) (v c : Word) : (s.foldTail k v c).l = s.l - c := rfl
@[simp] theorem State.foldTail_off (s : State) (k : Fin 4) (v c : Word) : (s.foldTail k v c).off = s.off + c := rfl
@[simp] theorem State.foldTail_x (s : State) (k : Fin 4) (v c : Word) : (s.foldTail k v c).x = s.x := rfl
@[simp] theorem State.foldTail_i (s : State) (k : Fin 4) (v c : Word) : (s.foldTail k v c).i = s.i + 1 := rfl
@[simp] theorem State.foldTail_ph (s : State) (k : Fin 4) (v c : Word) : (s.foldTail k v c).ph = Phase.tail2 := rfl
@[simp] theorem State.foldTail_res (s : State) (k : Fin 4) (v c : Word) : (s.foldTail k v c).res = s.res := rfl
@[simp] theorem State.foldTail_done (s : State) (k : Fin 4) (v c : Word) : (s.foldTail k v c).done = s.done := rfl
@[simp] theorem State.foldTail_fcode (s : State) (k : Fin 4) (v c : Word) : (s.foldTail k v c).fcode = s.fcode := rfl
@[simp] theorem State.foldTail_params (s : State) (k : Fin 4) (v c : Word) : (s.foldTail k v c).params = s.params := rfl
@[simp] theorem State.foldTail_data (s : State) (k : Fin 4) (v c : Word) : (s.foldTail k v c).data = s.data := rfl
@[simp] theorem State.foldTail_ports (s : State) (k : Fin 4) (v c : Word) : (s.foldTail k v c).ports = s.ports := rfl
@[simp] theorem State.foldTail_turns (s : State) (k : Fin 4) (v c : Word) : (s.foldTail k v c).turns = s.turns := rfl
@[simp] theorem State.foldTail_observed (s : State) (k : Fin 4) (v c : Word) : (s.foldTail k v c).observed = s.observed := rfl
@[simp] theorem State.foldTail_freeCount (s : State) (k : Fin 4) (v c : Word) : (s.foldTail k v c).freeCount = s.freeCount := rfl

/-! ## `State.resetEvent` -/

@[simp] theorem State.resetEvent_ph (s : State) : (s.resetEvent).ph = Phase.idle := rfl
@[simp] theorem State.resetEvent_done (s : State) : (s.resetEvent).done = false := rfl
@[simp] theorem State.resetEvent_fcode (s : State) : (s.resetEvent).fcode = 0 := rfl
@[simp] theorem State.resetEvent_params (s : State) : (s.resetEvent).params = s.params := rfl
@[simp] theorem State.resetEvent_data (s : State) : (s.resetEvent).data = s.data := rfl
@[simp] theorem State.resetEvent_ports (s : State) : (s.resetEvent).ports = s.ports := rfl
@[simp] theorem State.resetEvent_turns (s : State) : (s.resetEvent).turns = s.turns := rfl
@[simp] theorem State.resetEvent_observed (s : State) : (s.resetEvent).observed = s.observed := rfl
@[simp] theorem State.resetEvent_freeCount (s : State) : (s.resetEvent).freeCount = s.freeCount + 10 := rfl

/-! ## `State.reset` -/

theorem State.reset_ph : State.reset.ph = Phase.idle := rfl
theorem State.reset_done : State.reset.done = false := rfl
theorem State.reset_fcode : State.reset.fcode = 0 := rfl
theorem State.reset_data : State.reset.data = [] := rfl
theorem State.reset_turns : State.reset.turns = [] := rfl

/-! ## Lanes -/

@[simp] theorem Lanes.get_set (h : Lanes) (k : Fin 4) (v : Word) : (h.set k v).get k = v := by
  match k with
  | 0 => rfl
  | 1 => rfl
  | 2 => rfl
  | 3 => rfl

theorem Lanes.get_set_ne (h : Lanes) (k j : Fin 4) (v : Word) (hj : j ≠ k) : (h.set k v).get j = h.get j := by
  match k, j with
  | 0, 0 | 1, 1 | 2, 2 | 3, 3 => exact absurd rfl hj
  | 0, 1 | 0, 2 | 0, 3 | 1, 0 | 1, 2 | 1, 3 | 2, 0 | 2, 1 | 2, 3 | 3, 0 | 3, 1 | 3, 2 => rfl

theorem Lanes.ext_get (h g : Lanes) (e : ∀ k, h.get k = g.get k) : h = g := by
  cases h
  cases g
  have e0 := e 0
  have e1 := e 1
  have e2 := e 2
  have e3 := e 3
  simp only [Lanes.get] at e0 e1 e2 e3
  simp [e0, e1, e2, e3]

theorem laneOf?_eq_some (i : BitVec 3) (k : Fin 4) : laneOf? i = some k ↔ i.toNat = k.val := by
  unfold laneOf?
  split
  · simp [Fin.ext_iff]
  · have := k.isLt
    simp
    omega

theorem laneOf?_eq_none (i : BitVec 3) : laneOf? i = none ↔ 3 < i.toNat := by
  unfold laneOf?
  split <;> simp <;> omega

/-- The two lanes a bulk word changes, and the others (41_mixer.md R111). -/
theorem absorbWord_get (p1 : Word) (h : Lanes) (k j : Fin 4) (w : Word) :
    (absorbWord p1 h k w).get j =
      if j = k + 1 then h.get j ^^^ rotl64 w 40
      else if j = k then (h.get k ^^^ w) * p1
      else h.get j := by
  have hk : k + 1 ≠ k := by revert k; decide
  unfold absorbWord
  by_cases h1 : j = k + 1
  · subst h1
    simp [Lanes.get_set_ne _ _ _ _ hk]
  · rw [Lanes.get_set_ne _ _ _ _ h1]
    by_cases h2 : j = k
    · subst h2
      simp [h1]
    · simp [h1, h2, Lanes.get_set_ne _ _ _ _ h2]

end Sys2Proof.Machine
end

