-- ==== Sys2Proof/Laws/Ops.lean ====
section
/-! SUPPORT. What the shared operations and the meanings can do when they answer a next state, said once, and which
operation a phase code decodes to. -/

namespace Sys2Proof.Machine

/-- A step that goes on after a read did read a value. -/
theorem withRead_eq_next {α : Type} (r : Except ReadStop α) (k : α → Host.Outcome State Fault Refusal) (t : State)
    (h : withRead r k = .next t) : ∃ v, r = .ok v ∧ k v = .next t := by
  unfold withRead at h
  split at h
  · exact ⟨_, rfl, h⟩
  · simp at h
  · simp at h

@[simp] theorem withRead_ok {α : Type} (v : α) (k : α → Host.Outcome State Fault Refusal) :
    withRead (.ok v) k = k v := rfl

@[simp] theorem idle_ne_faulted : Phase.idle ≠ Phase.faulted := by decide

/-- The bit `l[0]` that `ODDB` tests is the parity of `l` (41_mixer.md R113). -/
theorem getLsbD_zero_eq_odd (v : Word) : v.getLsbD 0 = decide (v.toNat % 2 = 1) := by
  rw [BitVec.getLsbD, Nat.testBit_zero]

/-- The three things START can do (70_reset_and_hazards.md R204). -/
theorem State.start_cases (s : State) (entry : BitVec 4) :
    (s.ph = Phase.faulted ∧ s.start entry = s) ∨
    (s.busy = true ∧ s.start entry = s.raise .protocol) ∨
    (s.ph = Phase.idle ∧
      s.start entry = { s with a := s.ports.arg, n := s.ports.len, done := false, ph := entry }) := by
  unfold State.start State.busy
  by_cases hf : s.ph = Phase.faulted
  · simp [hf]
  · by_cases hi : s.ph = Phase.idle
    · simp [hi]
    · simp [hf, hi]

/-- The three things START with an illegal word can do (70_reset_and_hazards.md R204). -/
theorem State.startIllegal_cases (s : State) :
    (s.ph = Phase.faulted ∧ s.startIllegal = s) ∨
    (s.busy = true ∧ s.startIllegal = s.raise .protocol) ∨
    (s.ph = Phase.idle ∧ s.startIllegal = s.raise .illegalCmd) := by
  unfold State.startIllegal State.busy
  by_cases hf : s.ph = Phase.faulted
  · simp [hf]
  · by_cases hi : s.ph = Phase.idle
    · simp [hi]
    · simp [hf, hi]

/-- Everything `BULK` can do (41_mixer.md R111). -/
theorem execBulk_eq_next (s t : State) (h : execBulk s = .next t) :
    (s.i = 0 ∧ s.l.toNat < 32 ∧ t = { s with ph := Phase.leninj }) ∨
    (¬ (s.i = 0 ∧ s.l.toNat < 32) ∧ ∃ k w, laneOf? s.i = some k ∧
      s.memRead8 (bulkAddress s.off s.i) = .ok w ∧ t = s.absorb k w) := by
  unfold execBulk at h
  split at h
  · rename_i c
    cases h
    exact .inl ⟨c.1, c.2, rfl⟩
  · rename_i c
    split at h
    · simp at h
    · rename_i k hk
      obtain ⟨w, hw, ht⟩ := withRead_eq_next _ _ _ h
      cases ht
      exact .inr ⟨c, k, w, hk, hw, rfl⟩

/-- Everything `ODDB` can do (41_mixer.md R113). -/
theorem execOddb_eq_next (s t : State) (h : execOddb s = .next t) :
    (s.l.toNat % 2 = 0 ∧ t = { s with ph := Phase.fin0 }) ∨
    (s.l.toNat % 2 = 1 ∧ ∃ b, s.memRead1 s.off.toNat = .ok b ∧
      t = { s with h := { s.h with h0 := s.h.h0 ^^^ zext64 b }, off := s.off + 1, l := s.l - 1, ph := Phase.fin0 }) := by
  have odd := getLsbD_zero_eq_odd s.l
  unfold execOddb at h
  split at h
  · rename_i c
    obtain ⟨b, hb, ht⟩ := withRead_eq_next _ _ _ h
    cases ht
    exact .inr ⟨by simpa only [odd, decide_eq_true_eq] using c, b, hb, rfl⟩
  · rename_i c
    cases h
    refine .inl ⟨?_, rfl⟩
    simp only [odd, decide_eq_true_eq] at c
    omega

/-- Everything `CHUNK8` can do (41_mixer.md R115). -/
theorem execChunk8_eq_next (s t : State) (h : execChunk8 s = .next t) :
    (s.l.toNat < 8 ∧ t = { s with i := 0, ph := Phase.tail2 }) ∨
    (8 ≤ s.l.toNat ∧ 3 < s.i.toNat ∧ t = s.raise .laneIndex) ∨
    (8 ≤ s.l.toNat ∧ ∃ k w, laneOf? s.i = some k ∧ s.memRead8 s.off.toNat = .ok w ∧
      t = { s with
        h := s.h.set k (mixfin (s.h.get k ^^^ w) s.params.p2)
        off := s.off + 8, l := s.l - 8, i := s.i + 1, ph := Phase.chunk8 }) := by
  unfold execChunk8 at h
  split at h
  · rename_i c
    split at h
    · rename_i hk
      cases h
      exact .inr (.inl ⟨c, (laneOf?_eq_none _).1 hk, rfl⟩)
    · rename_i k hk
      obtain ⟨w, hw, ht⟩ := withRead_eq_next _ _ _ h
      cases ht
      exact .inr (.inr ⟨c, k, w, hk, hw, rfl⟩)
  · cases h
    exact .inl ⟨by rename_i c; simpa only [Config.word, Nat.not_le] using c, rfl⟩

/-- Everything `TAIL2` can do (41_mixer.md R116). -/
theorem execTail2_eq_next (s t : State) (h : execTail2 s = .next t) :
    (s.l.toNat = 0 ∧ t = { s with ph := Phase.combine }) ∨
    (0 < s.l.toNat ∧ 3 < s.i.toNat ∧ t = s.raise .laneIndex) ∨
    (2 ≤ s.l.toNat ∧ ∃ k v, laneOf? s.i = some k ∧ s.memRead2 s.off.toNat = .ok v ∧ t = s.foldTail k (zext64 v) 2) ∨
    (s.l.toNat = 1 ∧ ∃ k v, laneOf? s.i = some k ∧ s.memRead1 s.off.toNat = .ok v ∧ t = s.foldTail k (zext64 v) 1) := by
  unfold execTail2 at h
  split at h
  · rename_i c
    split at h
    · rename_i hk
      cases h
      exact .inr (.inl ⟨c, (laneOf?_eq_none _).1 hk, rfl⟩)
    · rename_i k hk
      split at h
      · rename_i c2
        obtain ⟨v, hv, ht⟩ := withRead_eq_next _ _ _ h
        cases ht
        exact .inr (.inr (.inl ⟨c2, k, v, hk, hv, rfl⟩))
      · obtain ⟨v, hv, ht⟩ := withRead_eq_next _ _ _ h
        cases ht
        exact .inr (.inr (.inr ⟨by omega, k, v, hk, hv, rfl⟩))
  · cases h
    exact .inl ⟨by omega, rfl⟩

/-- Everything `LDW` can do (40_loader.md R102). -/
theorem execLdw_eq_next (s t : State) (h : execLdw s = .next t) :
    (s.n.toNat < s.a.toNat + 8 ∧ t = s.raise .bounds) ∨
    (s.a.toNat + 8 ≤ s.n.toNat ∧ ∃ v, s.memRead8 s.a.toNat = .ok v ∧
      t = { s with res := v, done := true, ph := Phase.idle }) := by
  unfold execLdw at h
  split at h
  · rename_i c
    cases h
    exact .inl ⟨c, rfl⟩
  · rename_i c
    obtain ⟨v, hv, ht⟩ := withRead_eq_next _ _ _ h
    cases ht
    exact .inr ⟨by simp only [Config.word] at c; omega, v, hv, rfl⟩

/-- A phase code that decodes is the code of the operation (30_encoding.md R78). -/
theorem decodePhase_eq_ok (c : BitVec 4) (i : Instr) (h : decodePhase c = .ok i) : encode i = .ph c := by
  have all : ∀ c : BitVec 4, (decodePhase c).toOption.all (fun i => encode i = .ph c) = true := by decide
  have := all c
  simpa [h, Except.toOption] using this

/-- A command word that decodes is the word of the command (30_encoding.md R76). -/
theorem decodeCmd_eq_ok (w : BitVec 8) (i : Instr) (h : decodeCmd w = .ok i) : encode i = .cmd w := by
  have all : ∀ w : BitVec 8, (decodeCmd w).toOption.all (fun i => encode i = .cmd w) = true := by decide
  have := all w
  simpa [h, Except.toOption] using this

end Sys2Proof.Machine
end

