-- ==== Sys2Proof/Laws/Effect.lean ====
section
/-! SUPPORT. Everything an operation can do when it answers a next state, as one inductive relation: the frames and the
whole-machine rules are proved by cases on it, with no meaning unfolded. -/

namespace Sys2Proof.Machine

/-- `Effect i s t`: operation `i` can take state `s` to state `t`, with the condition under which it does. -/
inductive Effect : Instr → State → State → Prop where
  | ldle64Ignored (s : State) (h : s.ph = Phase.faulted) : Effect .ldle64 s s
  | ldle64Protocol (s : State) (h : s.busy = true) : Effect .ldle64 s (s.raise .protocol)
  | ldle64Latched (s : State) (h : s.ph = Phase.idle) :
      Effect .ldle64 s { s with a := s.ports.arg, n := s.ports.len, done := false, ph := Phase.ldw }
  | hash64Ignored (s : State) (h : s.ph = Phase.faulted) : Effect .hash64 s s
  | hash64Protocol (s : State) (h : s.busy = true) : Effect .hash64 s (s.raise .protocol)
  | hash64Latched (s : State) (h : s.ph = Phase.idle) :
      Effect .hash64 s { s with a := s.ports.arg, n := s.ports.len, done := false, ph := Phase.init }
  | init (s : State) : Effect .init s { s with
      h := { h0 := s.params.p1, h1 := s.params.p2, h2 := s.params.p3, h3 := s.a }
      l := s.n, off := 0, i := 0, ph := Phase.bulk }
  | bulkExit (s : State) (hi : s.i = 0) (hl : s.l.toNat < 32) : Effect .bulk s { s with ph := Phase.leninj }
  | bulkWord (s : State) (k : Fin 4) (w : Word) (hc : ¬ (s.i = 0 ∧ s.l.toNat < 32)) (hk : s.i.toNat = k.val)
      (hw : s.memRead8 (bulkAddress s.off s.i) = .ok w) : Effect .bulk s (s.absorb k w)
  | leninj (s : State) :
      Effect .leninj s { s with h := { s.h with h0 := s.h.h0 + halfSwap s.n }, ph := Phase.oddb }
  | oddbEven (s : State) (hl : s.l.toNat % 2 = 0) : Effect .oddb s { s with ph := Phase.fin0 }
  | oddbOdd (s : State) (b : Byte) (hl : s.l.toNat % 2 = 1) (hb : s.memRead1 s.off.toNat = .ok b) :
      Effect .oddb s { s with
        h := { s.h with h0 := s.h.h0 ^^^ zext64 b }, off := s.off + 1, l := s.l - 1, ph := Phase.fin0 }
  | fin0 (s : State) :
      Effect .fin0 s { s with h := { s.h with h0 := mixfin s.h.h0 s.params.p2 }, i := 1, ph := Phase.chunk8 }
  | chunk8Exit (s : State) (hl : s.l.toNat < 8) : Effect .chunk8 s { s with i := 0, ph := Phase.tail2 }
  | chunk8LaneIndex (s : State) (hl : 8 ≤ s.l.toNat) (hi : 3 < s.i.toNat) : Effect .chunk8 s (s.raise .laneIndex)
  | chunk8Word (s : State) (k : Fin 4) (w : Word) (hl : 8 ≤ s.l.toNat) (hk : s.i.toNat = k.val)
      (hw : s.memRead8 s.off.toNat = .ok w) : Effect .chunk8 s { s with
        h := s.h.set k (mixfin (s.h.get k ^^^ w) s.params.p2)
        off := s.off + 8, l := s.l - 8, i := s.i + 1, ph := Phase.chunk8 }
  | tail2Exit (s : State) (hl : s.l.toNat = 0) : Effect .tail2 s { s with ph := Phase.combine }
  | tail2LaneIndex (s : State) (hl : 0 < s.l.toNat) (hi : 3 < s.i.toNat) : Effect .tail2 s (s.raise .laneIndex)
  | tail2Pair (s : State) (k : Fin 4) (v : BitVec 16) (hl : 2 ≤ s.l.toNat) (hk : s.i.toNat = k.val)
      (hv : s.memRead2 s.off.toNat = .ok v) : Effect .tail2 s (s.foldTail k (zext64 v) 2)
  | tail2Single (s : State) (k : Fin 4) (v : Byte) (hl : s.l.toNat = 1) (hk : s.i.toNat = k.val)
      (hv : s.memRead1 s.off.toNat = .ok v) : Effect .tail2 s (s.foldTail k (zext64 v) 1)
  | combine (s : State) : Effect .combine s { s with x := combineLanes s.h s.a, ph := Phase.aval }
  | aval (s : State) : Effect .aval s { s with x := avalanche s.x, ph := Phase.ret }
  | ret (s : State) : Effect .ret s { s with res := s.x, done := true, ph := Phase.idle }
  | ldwBounds (s : State) (h : s.n.toNat < s.a.toNat + 8) : Effect .ldw s (s.raise .bounds)
  | ldwWord (s : State) (v : Word) (h : s.a.toNat + 8 ≤ s.n.toNat) (hv : s.memRead8 s.a.toNat = .ok v) :
      Effect .ldw s { s with res := v, done := true, ph := Phase.idle }

/-- What `exec` does is one of the effects. -/
theorem exec_effect (i : Instr) (s t : State) (h : exec i s = .next t) : Effect i s t := by
  cases i with
  | ldle64 =>
    cases h
    rcases s.start_cases Phase.ldw with ⟨hp, e⟩ | ⟨hp, e⟩ | ⟨hp, e⟩ <;> rw [e]
    · exact .ldle64Ignored s hp
    · exact .ldle64Protocol s hp
    · exact .ldle64Latched s hp
  | hash64 =>
    cases h
    rcases s.start_cases Phase.init with ⟨hp, e⟩ | ⟨hp, e⟩ | ⟨hp, e⟩ <;> rw [e]
    · exact .hash64Ignored s hp
    · exact .hash64Protocol s hp
    · exact .hash64Latched s hp
  | init => cases h; exact .init s
  | bulk =>
    rcases execBulk_eq_next s t h with ⟨hi, hl, rfl⟩ | ⟨hc, k, w, hk, hw, rfl⟩
    · exact .bulkExit s hi hl
    · exact .bulkWord s k w hc ((laneOf?_eq_some _ _).1 hk) hw
  | leninj => cases h; exact .leninj s
  | oddb =>
    rcases execOddb_eq_next s t h with ⟨hl, rfl⟩ | ⟨hl, b, hb, rfl⟩
    · exact .oddbEven s hl
    · exact .oddbOdd s b hl hb
  | fin0 => cases h; exact .fin0 s
  | chunk8 =>
    rcases execChunk8_eq_next s t h with ⟨hl, rfl⟩ | ⟨hl, hi, rfl⟩ | ⟨hl, k, w, hk, hw, rfl⟩
    · exact .chunk8Exit s hl
    · exact .chunk8LaneIndex s hl hi
    · exact .chunk8Word s k w hl ((laneOf?_eq_some _ _).1 hk) hw
  | tail2 =>
    rcases execTail2_eq_next s t h with ⟨hl, rfl⟩ | ⟨hl, hi, rfl⟩ | ⟨hl, k, v, hk, hv, rfl⟩ | ⟨hl, k, v, hk, hv, rfl⟩
    · exact .tail2Exit s hl
    · exact .tail2LaneIndex s hl hi
    · exact .tail2Pair s k v hl ((laneOf?_eq_some _ _).1 hk) hv
    · exact .tail2Single s k v hl ((laneOf?_eq_some _ _).1 hk) hv
  | combine => cases h; exact .combine s
  | aval => cases h; exact .aval s
  | ret => cases h; exact .ret s
  | ldw =>
    rcases execLdw_eq_next s t h with ⟨hb, rfl⟩ | ⟨hb, v, hv, rfl⟩
    · exact .ldwBounds s hb
    · exact .ldwWord s v hb hv

end Sys2Proof.Machine
end

