-- ==== Sys2Proof/Laws/PerInstr.lean ====
section
/-! SUPPORT. Facts about every operation as syntax, one lemma per constructor. -/

/-- The operation's code is a legal one and stands in the operation's own format (30_encoding.md R76, R78). -/
def Sys2Proof.Laws.LegalCode.Statement (i : Sys2Proof.Instr) : Prop :=
  Sys2Proof.WellFormed.code (Sys2Proof.encode i) = true ∧
    match Sys2Proof.encode i with
    | .cmd _ => i.format = .cmd
    | .ph _ => i.format = .ph

namespace Sys2Proof.Laws.LegalCode

theorem ldle64 : Statement .ldle64 := ⟨by decide, rfl⟩
theorem hash64 : Statement .hash64 := ⟨by decide, rfl⟩
theorem init : Statement .init := ⟨by decide, rfl⟩
theorem bulk : Statement .bulk := ⟨by decide, rfl⟩
theorem leninj : Statement .leninj := ⟨by decide, rfl⟩
theorem oddb : Statement .oddb := ⟨by decide, rfl⟩
theorem fin0 : Statement .fin0 := ⟨by decide, rfl⟩
theorem chunk8 : Statement .chunk8 := ⟨by decide, rfl⟩
theorem tail2 : Statement .tail2 := ⟨by decide, rfl⟩
theorem combine : Statement .combine := ⟨by decide, rfl⟩
theorem aval : Statement .aval := ⟨by decide, rfl⟩
theorem ret : Statement .ret := ⟨by decide, rfl⟩
theorem ldw : Statement .ldw := ⟨by decide, rfl⟩

end Sys2Proof.Laws.LegalCode
end

