-- ==== Sys2Proof/Laws/Step.lean ====
section
/-! SUPPORT. What one step can do, said once: whose turn it is, and what each turn answers when it goes on. -/

namespace Sys2Proof.Machine

/-! ## The arms of the dispatch -/

@[simp] theorem exec_ldle64 (s : State) : exec .ldle64 s = execLdle64 s := rfl
@[simp] theorem exec_hash64 (s : State) : exec .hash64 s = execHash64 s := rfl
@[simp] theorem exec_init (s : State) : exec .init s = execInit s := rfl
@[simp] theorem exec_bulk (s : State) : exec .bulk s = execBulk s := rfl
@[simp] theorem exec_leninj (s : State) : exec .leninj s = execLeninj s := rfl
@[simp] theorem exec_oddb (s : State) : exec .oddb s = execOddb s := rfl
@[simp] theorem exec_fin0 (s : State) : exec .fin0 s = execFin0 s := rfl
@[simp] theorem exec_chunk8 (s : State) : exec .chunk8 s = execChunk8 s := rfl
@[simp] theorem exec_tail2 (s : State) : exec .tail2 s = execTail2 s := rfl
@[simp] theorem exec_combine (s : State) : exec .combine s = execCombine s := rfl
@[simp] theorem exec_aval (s : State) : exec .aval s = execAval s := rfl
@[simp] theorem exec_ret (s : State) : exec .ret s = execRet s := rfl
@[simp] theorem exec_ldw (s : State) : exec .ldw s = execLdw s := rfl

/-! ## Decoding -/

@[simp] theorem decodeCmd_ldle64 : decodeCmd 1#8 = .ok .ldle64 := by decide
@[simp] theorem decodeCmd_hash64 : decodeCmd 2#8 = .ok .hash64 := by decide

/-- Every other command word is refused (30_encoding.md R81). -/
theorem decodeCmd_illegal (w : BitVec 8) (h1 : w ≠ 1#8) (h2 : w ≠ 2#8) : ∃ e, decodeCmd w = .error e := by
  have all : ∀ w : BitVec 8, w ≠ 1#8 → w ≠ 2#8 → (decodeCmd w).toOption = none := by decide
  have := all w h1 h2
  cases h : decodeCmd w with
  | error e => exact ⟨e, rfl⟩
  | ok i => simp [h, Except.toOption] at this

/-- What a phase code is: an operation's, `IDLE`, `FAULTED` or reserved (10_state.md R27). -/
theorem decodePhase_cases (c : BitVec 4) :
    (∃ i, decodePhase c = .ok i ∧ encode i = .ph c) ∨
    (c = Phase.idle ∧ decodePhase c = .error .idlePhase) ∨
    (c = Phase.faulted ∧ decodePhase c = .error .faultedPhase) ∨
    ((c = 12#4 ∨ c = 13#4 ∨ c = 14#4) ∧ decodePhase c = .error .reservedPhase) := by
  have all : ∀ c : BitVec 4,
      (decodePhase c).toOption.isSome = true ∨
      (c = Phase.idle ∧ decodePhase c = .error .idlePhase) ∨
      (c = Phase.faulted ∧ decodePhase c = .error .faultedPhase) ∨
      ((c = 12#4 ∨ c = 13#4 ∨ c = 14#4) ∧ decodePhase c = .error .reservedPhase) := by decide
  rcases all c with h | h
  · cases hd : decodePhase c with
    | error e => simp [hd, Except.toOption] at h
    | ok i => exact .inl ⟨i, rfl, decodePhase_eq_ok c i hd⟩
  · exact .inr h

/-- The eleven micro-operations by their phase codes. -/
theorem decodePhase_ok_cases (c : BitVec 4) (i : Instr) (h : decodePhase c = .ok i) :
    (c = 1#4 ∧ i = .init) ∨ (c = 2#4 ∧ i = .bulk) ∨ (c = 3#4 ∧ i = .leninj) ∨ (c = 4#4 ∧ i = .oddb) ∨
    (c = 5#4 ∧ i = .fin0) ∨ (c = 6#4 ∧ i = .chunk8) ∨ (c = 7#4 ∧ i = .tail2) ∨ (c = 8#4 ∧ i = .combine) ∨
    (c = 9#4 ∧ i = .aval) ∨ (c = 10#4 ∧ i = .ret) ∨ (c = 11#4 ∧ i = .ldw) := by
  have e := decodePhase_eq_ok c i h
  cases i <;> simp only [encode, Code.ph.injEq, reduceCtorEq] at e <;> subst e <;> simp

/-- An operation with a phase code makes the block `BUSY`. -/
theorem busy_of_decodePhase (s : State) (i : Instr) (h : decodePhase s.ph = .ok i) : s.busy = true := by
  unfold State.busy
  rcases decodePhase_ok_cases _ _ h with ⟨hc, _⟩ | ⟨hc, _⟩ | ⟨hc, _⟩ | ⟨hc, _⟩ | ⟨hc, _⟩ | ⟨hc, _⟩ | ⟨hc, _⟩ |
    ⟨hc, _⟩ | ⟨hc, _⟩ | ⟨hc, _⟩ | ⟨hc, _⟩ <;> rw [hc] <;> decide

/-! ## Turns -/

/-- Everything the sequencer's turn can do (30_encoding.md R80; the duty, 70_reset_and_hazards.md R206 a, holds where it runs an
operation). -/
theorem sequencerTurn_eq_next (s t : State) (h : sequencerTurn s = .next t) :
    ((s.ph = Phase.idle ∨ s.ph = Phase.faulted) ∧ t = s) ∨
      ∃ i, decodePhase s.ph = .ok i ∧ s.lengthIsTrue = true ∧ exec i s = .next t := by
  rcases decodePhase_cases s.ph with ⟨i, hi, _⟩ | ⟨hp, he⟩ | ⟨hp, he⟩ | ⟨_, he⟩
  · simp only [sequencerTurn, hi] at h
    split at h
    · exact .inr ⟨i, hi, ‹_›, h⟩
    · cases h
  · simp only [sequencerTurn, he, Host.Outcome.next.injEq] at h
    exact .inl ⟨.inl hp, h.symm⟩
  · simp only [sequencerTurn, he, Host.Outcome.next.injEq] at h
    exact .inl ⟨.inr hp, h.symm⟩
  · simp [sequencerTurn, he] at h

/-- With the duty kept the sequencer's turn runs the operation. -/
theorem sequencerTurn_of_lengthIsTrue (s : State) (i : Instr) (h : decodePhase s.ph = .ok i)
    (hl : s.lengthIsTrue = true) : sequencerTurn s = exec i s := by
  simp only [sequencerTurn, h, hl, if_true]

/-- With the duty broken the sequencer's turn is refused. -/
theorem sequencerTurn_of_not_lengthIsTrue (s : State) (i : Instr) (h : decodePhase s.ph = .ok i)
    (hl : s.lengthIsTrue = false) : sequencerTurn s = .refused .lengthNotTrue := by
  simp [sequencerTurn, h, hl]

/-- Everything START can do, by the command word (70_reset_and_hazards.md R204). -/
theorem startMove_eq (s : State) (cmd : BitVec 8) (arg len : Word) :
    startMove s cmd arg len = .next (
      let p : State := { s with ports := { cmd := cmd, arg := arg, len := len } }
      if cmd = 2#8 then p.start Phase.init else if cmd = 1#8 then p.start Phase.ldw else p.startIllegal) := by
  by_cases h2 : cmd = 2#8
  · subst h2
    simp only [startMove, decodeCmd_hash64, exec_hash64, execHash64, if_true]
  · by_cases h1 : cmd = 1#8
    · subst h1
      simp only [startMove, decodeCmd_ldle64, exec_ldle64, execLdle64, h2, if_true, if_false]
    · obtain ⟨e, he⟩ := decodeCmd_illegal cmd h1 h2
      simp only [startMove, he, h1, h2, if_false]

/-- Everything a step can do: the sequencer's turn, the end of a wait, or a move of the host. -/
theorem step_eq_next (s t : State) (h : step s = .next t) :
    (s.sequencerHasTurn ∧ ∃ rest, sequencerTurn { s with turns := rest } = .next t) ∨
    (∃ rest, s.turns = .waitIdle :: rest ∧ s.busy = false ∧ t = { s with turns := rest }) ∨
    ∃ m rest, s.turns = .host m :: rest ∧ hostMove m { s with turns := rest } = .next t := by
  unfold step takeTurn at h
  split at h
  · rename_i ht
    exact .inl ⟨.inl ht, s.turns, h⟩
  · rename_i rest ht
    exact .inl ⟨.inr (.inl (by simp [ht])), rest, h⟩
  · rename_i rest ht
    split at h
    · rename_i hb
      exact .inl ⟨.inr (.inr ⟨by simp [ht], hb⟩), s.turns, h⟩
    · rename_i hb
      simp only [Host.Outcome.next.injEq] at h
      exact .inr (.inl ⟨rest, ht, by simpa using hb, h.symm⟩)
  · rename_i m rest ht
    exact .inr (.inr ⟨m, rest, ht, h⟩)

end Sys2Proof.Machine
end

