-- ==== Sys2Proof/Tests/Slice0.lean ====
section
/-! SUPPORT. The model's own tests. Expected values are the spec's: 95_test_vectors.md (the section is named at each test) and
the examples of the rules. The second half holds one witness theorem, `witness_<Name>`, for the hypotheses of each statement
`Obligations.<Name>` that has some. -/

namespace Sys2Proof.Tests

open Sys2Proof Sys2Proof.Machine

/-! ## Helpers -/

/-- The outcome is a next state of which `p` holds. -/
def yields (o : Host.Outcome State Fault Refusal) (p : State → Bool) : Bool :=
  match o with
  | .next t => p t
  | .fault _ => false
  | .refused _ => false

/-- The outcome is this fault. -/
def faults (o : Host.Outcome State Fault Refusal) (r : Fault) : Bool :=
  match o with
  | .next _ => false
  | .fault q => q == r
  | .refused _ => false

/-- The outcome is this refusal. -/
def refuses (o : Host.Outcome State Fault Refusal) (r : Refusal) : Bool :=
  match o with
  | .next _ => false
  | .fault _ => false
  | .refused q => q == r

/-- Byte `k` is `k`. -/
def counting (n : Nat) : List Byte := (List.range n).map (BitVec.ofNat 8)

/-- The source's eight bytes. -/
def vec8 : List Byte := [0x01, 0x23, 0x45, 0x67, 0x89, 0xAB, 0xCD, 0xEF]

/-- A sequence connected and its length latched. -/
def loaded (bytes : List Byte) : State :=
  { State.reset with data := Memory.ofBytes bytes, n := BitVec.ofNat 64 bytes.length }

/-- At a phase, with a cursor and a lane index. -/
def atPhase (ph : BitVec 4) (bytes : List Byte) (off l : Word) (i : BitVec 3) : State :=
  { loaded bytes with ph := ph, off := off, l := l, i := i }

/-- With these turns to come. -/
def withTurns (s : State) (turns : List Turn) : State := { s with turns := turns }

/-- The host is about to START. -/
def starting (s : State) (cmd : BitVec 8) : State := withTurns s [.host (.start cmd 7 9)]

/-! ## Decoding: words written out from 30_encoding.md R76 and R78 -/

theorem test_decode_ldle64 : decodeCmd 0b00000001 = .ok .ldle64 := by decide
theorem test_decode_hash64 : decodeCmd 0b00000010 = .ok .hash64 := by decide
theorem test_decode_init : decodePhase 0b0001 = .ok .init := by decide
theorem test_decode_bulk : decodePhase 0b0010 = .ok .bulk := by decide
theorem test_decode_leninj : decodePhase 0b0011 = .ok .leninj := by decide
theorem test_decode_oddb : decodePhase 0b0100 = .ok .oddb := by decide
theorem test_decode_fin0 : decodePhase 0b0101 = .ok .fin0 := by decide
theorem test_decode_chunk8 : decodePhase 0b0110 = .ok .chunk8 := by decide
theorem test_decode_tail2 : decodePhase 0b0111 = .ok .tail2 := by decide
theorem test_decode_combine : decodePhase 0b1000 = .ok .combine := by decide
theorem test_decode_aval : decodePhase 0b1001 = .ok .aval := by decide
theorem test_decode_ret : decodePhase 0b1010 = .ok .ret := by decide
theorem test_decode_ldw : decodePhase 0b1011 = .ok .ldw := by decide

/-- The illegal words section 5 names (R81). -/
theorem test_decode_illegal_words :
    decodeCmd 0x00 = .error .unassignedOp ∧ decodeCmd 0x03 = .error .unassignedOp ∧
      decodeCmd 0x12 = .error .zeroFieldSet ∧ decodeCmd 0xFF = .error .zeroFieldSet ∧
      decodeCmd 0x11 = .error .zeroFieldSet := by decide

theorem test_decode_no_operation_phases :
    decodePhase 0 = .error .idlePhase ∧ decodePhase 12 = .error .reservedPhase ∧
      decodePhase 13 = .error .reservedPhase ∧ decodePhase 14 = .error .reservedPhase ∧
      decodePhase 15 = .error .faultedPhase := by decide

theorem test_decodeBytes :
    decodeBytes .ph [0x0B, 0x01] = .ok (.ldw, [0x01]) ∧ decodeBytes .ph [0x1B] = .error .upperNibbleSet ∧
      decodeBytes .cmd [] = .error .noByte := by decide

/-- The table's rows as words (log 12): four bits name a phase code, eight bits a command word first. -/
theorem test_decodeTableWord :
    decodeTableWord 4 1 = some .init ∧ decodeTableWord 4 2 = some .bulk ∧ decodeTableWord 8 1 = some .ldle64 ∧
      decodeTableWord 8 2 = some .hash64 ∧ decodeTableWord 8 3 = some .leninj ∧ decodeTableWord 8 11 = some .ldw ∧
      decodeTableWord 8 0x12 = none ∧ decodeTableWord 4 12 = none := by decide

/-! ## Well-formedness: a refused term for each check. `WellFormed.instr` has none, since no operation has an operand. -/

theorem test_code_refuses_upper_nibble : WellFormed.code (.cmd 0x12) = false := by decide
theorem test_code_refuses_reserved_phase : WellFormed.code (.ph 12) = false := by decide
theorem test_params_refuse_even :
    WellFormed.params { p1 := 2, p2 := 1, p3 := 1 } = false ∧ WellFormed.params { p1 := 1, p2 := 2, p3 := 1 } = false ∧
      WellFormed.params { p1 := 1, p2 := 1, p3 := 2 } = false := by decide
theorem test_sequence_refuses_too_long (bytes : List Byte) (h : bytes.length = 2 ^ 64) :
    WellFormed.sequence bytes = false :=
  decide_eq_false (h ▸ Nat.lt_irrefl _)
theorem test_memory_form_refuses_unsorted : ¬ Memory.wf [(3, 1), (2, 1)] := by decide

/-! ## Arithmetic and reads (sections 2.1 to 2.3) -/

theorem test_rotl64 : rotl64 0x0706050403020100 40 = 0x0201000706050403 ∧
    rotl64 0x8000000000000000 40 = 0x0000008000000000 := by decide
theorem test_mixfin : mixfin 0xFFFFFFFFFFFFFFFF Config.Params.default.p3 = 0xCDBC0956ECDDDDDD := by decide
theorem test_memRead_narrow :
    (loaded [0x29, 0x2A]).memRead2 0 = .ok 0x2A29 ∧ (loaded [0x80]).memRead1 0 = .ok 0x80 ∧
      (loaded [0x80]).memRead1 1 = .error .outOfBounds := by decide

/-! ## The commands (section 2.1, section 5) -/

theorem test_ldle64_latches : yields (step (starting (loaded vec8) 0x01)) fun t =>
    t.a == 7 && t.n == 9 && t.ph == 11 && t.status == 0x01 := by decide
theorem test_hash64_latches : yields (step (starting { loaded vec8 with done := true } 0x02)) fun t =>
    t.a == 7 && t.n == 9 && t.ph == 1 && t.status == 0x01 := by decide
theorem test_illegal_command_status : [0x00, 0x03, 0x12, 0xFF].all (fun w =>
    yields (step (starting (loaded vec8) w)) fun t => t.status == 0x14 && t.n == 8) := by decide
theorem test_protocol_status : yields (step (starting (atPhase 3 vec8 0 8 0) 0x00)) fun t => t.status == 0x44 := by decide
theorem test_start_ignored_when_faulted :
    yields (step (starting { loaded vec8 with ph := 15, fcode := 2 } 0x02)) fun t => t.status == 0x24 && t.n == 8 := by decide
theorem test_reset_event_status :
    yields (step (withTurns { loaded vec8 with ph := 15, fcode := 2 } [.host .reset])) fun t => t.status == 0x00 := by decide

/-! ## The loader (section 2.1) -/

theorem test_ldw_odd_offset : yields (exec .ldw { loaded (counting 16) with a := 7, ph := 11 }) fun t =>
    t.res == 0x0E0D0C0B0A090807 && t.status == 0x02 := by decide
theorem test_ldw_bounds : ([9, 0xFFFFFFFFFFFFFFFF] : List Word).all fun a =>
    yields (exec .ldw { loaded (counting 16) with a := a, ph := 11 }) fun t => t.status == 0x24 := by decide
/-- `LEN` one too large, the 8 bytes there: no result (70_reset_and_hazards.md R206 a). -/
theorem test_wrong_length_refused :
    refuses (run 2 (withTurns (loaded vec8) [.host (.start 0x01 0 9)])) .lengthNotTrue = true ∧
      refuses (run 2 (withTurns (loaded vec8) [.host (.start 0x02 0 0)])) .lengthNotTrue = true := by decide
theorem test_le64 : le64 vec8 0 = some 0xEFCDAB8967452301 ∧ le64 (0x00 :: vec8) 1 = some 0xEFCDAB8967452301 ∧
    le64 vec8 1 = none := by decide

/-! ## The mixer (sections 2.4 to 2.10, programs 4 and 5, and the examples of 41_mixer.md) -/

theorem test_init_seed : yields (exec .init { loaded vec8 with a := 0x12345678, ph := 1 }) fun t =>
    t.h.h0 == 0x2B7E151628AED2A5 && t.h.h2 == 0x3243F6A8885A308D && t.h.h3 == 0x12345678 && t.l == 8 && t.ph == 2 := by decide

theorem test_bulk_first_word : yields (exec .bulk { atPhase 2 (counting 43) 0 43 0 with
    h := { h0 := 0x2B7E151628AED2A5, h1 := 0x9E3793492EEDC3F7, h2 := 0, h3 := 0 } }) fun t =>
    t.h.h0 == 0xBA2AAD418E27C359 && t.h.h1 == 0x9C36934E28E8C7F4 && t.i == 1 && t.l == 43 && t.ph == 2 := by decide
theorem test_bulk_last_word_wraps : yields (exec .bulk (atPhase 2 (counting 43) 0 43 3)) fun t =>
    t.h.h3 == 0xC9BD7111AEB7DC78 && t.h.h0 == 0x1A19181F1E1D1C1B && t.off == 32 && t.l == 11 && t.i == 0 := by decide

theorem test_leninj_swaps_halves : yields (exec .leninj { atPhase 3 [] 0 0 0 with
    n := 0x0000000500000001, h := { h0 := 0x2B7E151628AED2A5, h1 := 0, h2 := 0, h3 := 0 } }) fun t =>
    t.h.h0 == 0x2B7E151728AED2AA && t.ph == 4 := by decide
theorem test_leninj_carry_lost : yields (exec .leninj { atPhase 3 [] 0 0 0 with
    n := 0xFFFFFFFF, h := { h0 := 0x2B7E151628AED2A5, h1 := 0, h2 := 0, h3 := 0 } }) fun t =>
    t.h.h0 == 0x2B7E151528AED2A5 := by decide

theorem test_oddb_first_tail_byte : yields (exec .oddb { atPhase 4 (counting 43) 32 11 0 with
    h := { h0 := 0xA033B589903ADF42, h1 := 0, h2 := 0, h3 := 0 } }) fun t =>
    t.h.h0 == 0xA033B589903ADF62 && t.l == 10 && t.off == 33 && t.ph == 5 := by decide

theorem test_fin0 : yields (exec .fin0 { atPhase 5 [] 0 0 0 with
    h := { h0 := 0x2B7E151628AED2A5, h1 := 0, h2 := 0, h3 := 0 } }) fun t =>
    t.h.h0 == 0x95CB1D1F3877D60F && t.i == 1 && t.ph == 6 := by decide

theorem test_chunk8_lane_one : yields (exec .chunk8 { atPhase 6 vec8 0 8 1 with
    h := { h0 := 0, h1 := 0x9E3793492EEDC3F7, h2 := 0, h3 := 0 } }) fun t =>
    t.h.h1 == 0xCC172B8CB5243840 && t.l == 0 && t.off == 8 && t.i == 2 && t.ph == 6 := by decide
theorem test_chunk8_exit_clears_index : yields (exec .chunk8 (atPhase 6 (counting 31) 25 6 4)) fun t =>
    t.i == 0 && t.l == 6 && t.ph == 7 := by decide

theorem test_tail2_pair : yields (exec .tail2 { atPhase 7 (counting 43) 41 2 0 with
    h := { h0 := 0x268E042D27B325D4, h1 := 0, h2 := 0, h3 := 0 } }) fun t =>
    t.h.h0 == 0x0A0E75CA638DD5CD && t.l == 0 && t.off == 43 && t.i == 1 && t.ph == 7 := by decide
theorem test_tail2_exit_keeps_index : yields (exec .tail2 (atPhase 7 (counting 31) 31 0 3)) fun t =>
    t.i == 3 && t.ph == 8 := by decide

/-! ## The terminal avalanche stage (42_finalizer.md, the examples of R130 to R132) -/

theorem test_combine : yields (exec .combine { atPhase 8 [] 0 0 0 with
    h := { h0 := 0x95CB1D1F3877D60F, h1 := 0x9E3793492EEDC3F7, h2 := 0x3243F6A8885A308D, h3 := 0 } }) fun t =>
    t.x == 0x2F5E69E3076CA003 && t.ph == 9 := by decide
theorem test_aval : yields (exec .aval { State.reset with x := 0x2F5E69E3076CA003, ph := 9 }) fun t =>
    t.x == 0x9EA80F3B18E26CFB && t.ph == 10 := by decide
theorem test_aval_one : yields (exec .aval { State.reset with x := 1, ph := 9 }) fun t => t.x == 0x3C02AA47758292BD := by decide
theorem test_ret : yields (exec .ret { State.reset with x := 0x9EA80F3B18E26CFB, ph := 10 }) fun t =>
    t.res == 0x9EA80F3B18E26CFB && t.status == 0x02 := by decide

/-! ## Turns, programs and the reference function -/

theorem test_withFetchWord_command : yields (step (State.reset.withFetchWord 8 2)) fun t => t.ph == 1 := by decide
theorem test_withFetchWord_phase : yields (step (State.reset.withFetchWord 8 10)) fun t => t.status == 0x02 := by decide
theorem test_programTurns : programTurns 0 [.data [5], .ldle64 3, .nodata, .reset] =
    [.host (.setData [5]), .host (.start 1 3 1), .waitIdle, .host .readStatus, .host .readRes, .host (.setData []),
      .host .reset] := by decide
/-- `hash64([], 0)` under the default parameters (43_hash64_sequence.md R153, log 1). -/
theorem test_hash64_empty : hash64 Config.Params.default [] 0 = 0x9EA80F3B18E26CFB := by decide
/-- R148's own values. -/
theorem test_hashSteps : [0, 8, 31, 32, 43, 1000].map hashSteps = [10, 11, 16, 14, 16, 135] := by decide

/-! ## Witnesses: each statement's hypotheses are met -/

theorem witness_DecodeEncodeAgree :
    WellFormed.instr .hash64 = true ∧ decode (.ph 11) = .ok .ldw ∧ decode (.cmd 2) = .ok .hash64 ∧
      decodeBytes .cmd [1, 9] = .ok (.ldle64, [9]) := by decide

theorem witness_StepRunsThePhaseOperation :
    decodePhase (atPhase 1 [] 0 0 0).ph = .ok .init ∧ decodePhase (atPhase 11 [] 0 0 0).ph = .ok .ldw ∧
      (atPhase 1 [] 0 0 0).turns = [] ∧
      (withTurns (atPhase 11 [] 0 0 0) [.sequencer]).turns = .sequencer :: [] ∧
      (withTurns (atPhase 11 [] 0 0 0) [.waitIdle]).turns = .waitIdle :: [] ∧
      (atPhase 11 [] 0 0 0).lengthIsTrue = true ∧ { atPhase 11 vec8 0 0 0 with n := 9 }.lengthIsTrue = false ∧
      { atPhase 11 vec8 0 0 0 with n := 9 }.sequencerHasTurn := by decide

theorem witness_StepRunsTheStartedCommand :
    (starting State.reset 0x01).turns = .host (.start 0x01 7 9) :: [] ∧ decodeCmd 0x01 = .ok .ldle64 := by decide

theorem witness_SequencerWithoutStep :
    [0, 15, 12, 13, 14].all (fun p => (atPhase p [] 0 0 0).turns == [] && (atPhase p [] 0 0 0).ph == p &&
      (withTurns (atPhase p [] 0 0 0) [.sequencer]).turns == .sequencer :: [] &&
      (withTurns (atPhase p [] 0 0 0) [.sequencer]).ph == p) := by decide

theorem witness_WaitEndsWhenNotBusy :
    (withTurns (atPhase 0 [] 0 0 0) [.waitIdle]).turns = .waitIdle :: [] ∧
      (withTurns (atPhase 15 [] 0 0 0) [.waitIdle]).ph = 15 ∧
      yields (step (withTurns (atPhase 3 [] 0 0 0) [.waitIdle])) (fun _ => true) = true := by decide

/-- Every clause: `FAULTED`, the two ends of `BUSY`, `IDLE` with each kind of word. -/
theorem witness_StartMoveFollowsItsPseudocode :
    [(0x02, 15), (0x02, 1), (0x01, 14), (0x02, 0), (0x01, 0), (0x00, 0), (0x03, 0), (0xFF, 0)].all (fun p =>
      (starting (atPhase p.2 [] 0 0 0) p.1).turns == [.host (.start p.1 7 9)] &&
        (starting (atPhase p.2 [] 0 0 0) p.1).ph == p.2) := by decide

theorem witness_CommandsStartInIdle : State.reset.ph = 0 := by decide

theorem witness_CommandsOutsideIdle :
    (atPhase 1 [] 0 0 0).ph ≠ 0 ∧ (atPhase 1 [] 0 0 0).ph ≠ 15 ∧ (atPhase 14 [] 0 0 0).ph ≠ 15 ∧
      (atPhase 15 [] 0 0 0).ph = 15 := by decide

theorem witness_IllegalCommandLatchesNothing :
    (starting State.reset 0x00).turns = .host (.start 0x00 7 9) :: [] ∧ (starting State.reset 0x00).ph = 0 ∧
      (0x00 : BitVec 8) ≠ 0x01 ∧ (0x03 : BitVec 8) ≠ 0x02 := by decide

/-- A fault of each kind is taken. -/
theorem witness_FaultEntryWritesThreeRegisters :
    yields (step (starting State.reset 0x03)) (fun t => t.ph == 15 && t.fcode == 1) = true ∧
      yields (step (starting (atPhase 14 [] 0 0 0) 0x01)) (fun t => t.ph == 15 && t.fcode == 4) = true ∧
      yields (step { atPhase 11 vec8 0 0 0 with a := 1 }) (fun t => t.ph == 15 && t.fcode == 2) = true ∧
      yields (step (atPhase 6 vec8 0 8 4)) (fun t => t.ph == 15 && t.fcode == 3) = true ∧
      yields (step (atPhase 7 vec8 0 1 4)) (fun t => t.ph == 15 && t.fcode == 3) = true := by decide

theorem witness_OnlyResetLeavesFaulted :
    (atPhase 15 [] 0 0 0).ph = 15 ∧ yields (step (starting (atPhase 15 [] 0 0 0) 2)) (fun _ => true) = true ∧
      (withTurns (atPhase 15 [] 0 0 0) [.host .reset]).turns = .host .reset :: [] := by decide

theorem witness_ResetEventFromAnyPhase :
    [0, 1, 11, 14, 15].all (fun p => (withTurns (atPhase p [] 0 0 0) [.host .reset]).turns == [.host .reset]) := by decide

theorem witness_DoneAndFcodeWriters :
    yields (step { State.reset with ph := 10 }) (fun t => t.done) = true ∧
      yields (step { atPhase 11 vec8 0 0 0 with a := 0 }) (fun t => t.done) = true ∧
      yields (step (starting State.reset 2)) (fun _ => true) = true ∧
      yields (step (withTurns { State.reset with ph := 15, fcode := 4 } [.host .reset])) (fun t => t.fcode == 0) = true := by
  decide

theorem witness_HostReadsStatusAndResult :
    (withTurns State.reset [.host .readStatus]).turns = .host .readStatus :: [] ∧
      (withTurns { State.reset with done := true } [.host .readRes]).done = true ∧
      (withTurns State.reset [.host .readRes]).turns = .host .readRes :: [] ∧ State.reset.done = false := by decide

theorem witness_HostConnectsData :
    (withTurns State.reset [.host (.setData vec8)]).turns = .host (.setData vec8) :: [] ∧ vec8.length < 2 ^ 64 ∧
      (atPhase 1 [] 0 0 0).ph ≠ 0 ∧ (atPhase 14 [] 0 0 0).ph ≠ 15 ∧ (atPhase 15 [] 0 0 0).ph = 15 := by decide
/-- The third clause: a sequence of `2^64` bytes. -/
theorem witness_HostConnectsData_too_long : ∃ bytes : List Byte, 2 ^ 64 ≤ bytes.length :=
  ⟨List.replicate (2 ^ 64) 0, Nat.le_of_eq List.length_replicate.symm⟩

/-- Just out of bounds and just in bounds, at each width. -/
theorem witness_MemReadIsTheLittleEndianSum :
    (loaded vec8).n.toNat < 1 + 8 ∧ (loaded vec8).n.toNat < 7 + 2 ∧ (loaded vec8).n.toNat < 8 + 1 ∧
      0 + 8 ≤ (loaded vec8).n.toNat ∧ 6 + 2 ≤ (loaded vec8).n.toNat ∧ 7 + 1 ≤ (loaded vec8).n.toNat ∧
      ∀ k, k < 8 → (loaded vec8).data.read (0 + k) = some (vec8.getD k 0) := by decide

theorem witness_MixedWidthReadsAgree :
    (loaded vec8).memRead8 0 = .ok 0xEFCDAB8967452301 ∧ (loaded vec8).memRead2 6 = .ok 0xEFCD := by decide

theorem witness_LoaderRoundTrip : vec8.length = 8 := by decide

theorem witness_EightByteReadIsTheLoader :
    (loaded vec8).data = Memory.ofBytes vec8 ∧ (loaded vec8).n.toNat = vec8.length ∧
      (loaded []).n.toNat = ([] : List Byte).length := by decide

/-- `A + 8 = N` and `A + 8 = N + 1`. -/
theorem witness_LdwLoadsOrRaisesBounds :
    (loaded vec8).n.toNat < (1 : Word).toNat + 8 ∧ (0 : Word).toNat + 8 ≤ (loaded vec8).n.toNat ∧
      (loaded vec8).memRead8 (0 : Word).toNat = .ok 0xEFCDAB8967452301 := by decide

/-- The exit at 31, a word step at 32 for `i = 0`, and for `i = 3`. -/
theorem witness_BulkAbsorbsAWordOrLeaves :
    ((atPhase 2 (counting 31) 0 31 0).i = 0 ∧ (atPhase 2 (counting 31) 0 31 0).l.toNat < 32) ∧
      (32 ≤ (atPhase 2 (counting 32) 0 32 0).l.toNat ∧
        (atPhase 2 (counting 32) 0 32 0).memRead8 0 = .ok 0x0706050403020100) ∧
      ((atPhase 2 (counting 32) 0 32 3).i.toNat = (3 : Fin 4).val ∧
        (atPhase 2 (counting 32) 0 32 3).memRead8 24 = .ok 0x1F1E1D1C1B1A1918) := by decide

theorem witness_OddbFoldsOneByteWhenOdd :
    (atPhase 4 [] 0 0 0).l.toNat % 2 = 0 ∧ (atPhase 4 [7] 0 1 0).l.toNat % 2 = 1 ∧
      (atPhase 4 [7] 0 1 0).memRead1 0 = .ok 7 := by decide

/-- The exit at 7, the assertion at `i = 4`, an iteration at 8 with `i = 3`. -/
theorem witness_Chunk8AbsorbsAChunkOrLeaves :
    (atPhase 6 vec8 0 7 1).l.toNat < 8 ∧
      (8 ≤ (atPhase 6 vec8 0 8 4).l.toNat ∧ 3 < (atPhase 6 vec8 0 8 4).i.toNat) ∧
      (8 ≤ (atPhase 6 vec8 0 8 3).l.toNat ∧ (atPhase 6 vec8 0 8 3).i.toNat = (3 : Fin 4).val ∧
        (atPhase 6 vec8 0 8 3).memRead8 0 = .ok 0xEFCDAB8967452301) := by decide

/-- The exit at 0, the assertion at 1 with `i = 4`, a pair at 2, a single byte at 1. -/
theorem witness_Tail2FoldsOrLeaves :
    (atPhase 7 [5, 6] 0 0 0).l.toNat = 0 ∧
      (0 < (atPhase 7 [5, 6] 0 1 4).l.toNat ∧ 3 < (atPhase 7 [5, 6] 0 1 4).i.toNat) ∧
      (2 ≤ (atPhase 7 [5, 6] 0 2 0).l.toNat ∧ (atPhase 7 [5, 6] 0 2 0).memRead2 0 = .ok 0x0605) ∧
      ((atPhase 7 [5] 0 1 3).l.toNat = 1 ∧ (atPhase 7 [5] 0 1 3).i.toNat = (3 : Fin 4).val ∧
        (atPhase 7 [5] 0 1 3).memRead1 0 = .ok 5) := by decide

/-- Each clause's stop is met at its boundary. -/
theorem witness_MixerNeverAnswersOutOfBounds :
    faults (exec .bulk (atPhase 2 (counting 31) 0 32 4)) .bulkLane = true ∧
      faults (exec .bulk (atPhase 2 (counting 31) 0 32 3)) .readOutOfBounds = true ∧
      faults (exec .oddb (atPhase 4 [] 0 1 0)) .readOutOfBounds = true ∧
      faults (exec .chunk8 (atPhase 6 vec8 1 8 3)) .readOutOfBounds = true ∧
      faults (exec .tail2 (atPhase 7 [5] 0 2 0)) .readOutOfBounds = true ∧
      faults (exec .tail2 (atPhase 7 [] 0 1 3)) .readOutOfBounds = true := by decide

theorem witness_MixfinIsABijection : Config.Params.default.p2.getLsbD 0 = true ∧ Config.Params.default.p3.getLsbD 0 = true := by
  decide

theorem witness_RotateMovesEachBit : (0 < 1 ∧ 1 < 64) ∧ (0 < 63 ∧ 63 < 64) ∧ 0 < 64 := by decide

/-- Every operation completes somewhere (statements `NoOperationStores`, `AccessMatrixWrites`). -/
theorem witness_NoOperationStores :
    [Instr.ldle64, .hash64, .init, .leninj, .fin0, .combine, .aval, .ret].all
        (fun i => yields (exec i State.reset) fun _ => true) = true ∧
      [Instr.bulk, .oddb, .chunk8, .tail2, .ldw].all
        (fun i => yields (exec i (atPhase 2 (counting 43) 0 43 1)) fun _ => true) = true := by decide

theorem witness_AccessMatrixWrites :
    yields (exec .bulk (atPhase 2 (counting 43) 0 43 3)) (fun t => t.h != State.reset.h) = true ∧
      (atPhase 2 (counting 43) 0 43 3).i.toNat = (3 : Fin 4).val ∧ (1 : Fin 4) ≠ 3 ∧ (1 : Fin 4) ≠ 3 + 1 ∧
      (atPhase 6 vec8 0 8 1).i.toNat ≠ (0 : Fin 4).val := by decide

theorem witness_LatchesAndParametersHold :
    yields (step (starting State.reset 2)) (fun t => t.a != State.reset.a && t.n != State.reset.n) = true := by decide

/-- The sequencer moves from every phase that has a step, at the boundaries of the conditions; the host moves too. -/
theorem witness_SuccessorOfEveryPhase :
    [atPhase 0 [] 0 0 0, atPhase 1 [] 0 0 0, atPhase 2 [] 0 31 0, atPhase 2 (counting 32) 0 32 0, atPhase 3 [] 0 0 0,
      atPhase 4 [] 0 0 0, atPhase 5 [] 0 0 0, atPhase 6 [] 0 7 1, atPhase 6 vec8 0 8 3, atPhase 6 vec8 0 8 4,
      atPhase 7 [] 0 0 3, atPhase 7 [5] 0 1 3, atPhase 7 [5] 0 1 4, atPhase 8 [] 0 0 0, atPhase 9 [] 0 0 0,
      atPhase 10 [] 0 0 0, atPhase 11 vec8 0 0 0, atPhase 11 [] 0 0 0, atPhase 15 [] 0 0 0,
      starting (atPhase 0 [] 0 0 0) 1, starting (atPhase 14 [] 0 0 0) 1, withTurns (atPhase 9 [] 0 0 0) [.host .reset]].all
      (fun s => yields (step s) fun _ => true) = true ∧
    (atPhase 0 [] 0 0 0).sequencerHasTurn ∧ (withTurns (atPhase 9 [] 0 0 0) [.sequencer]).sequencerHasTurn ∧
    (withTurns (atPhase 9 [] 0 0 0) [.waitIdle]).sequencerHasTurn := by decide

/-- A wait that goes on, and moves that are not the one a clause excepts. -/
theorem witness_OutsideWorldChangesInItsOwnMove :
    yields (step (withTurns (atPhase 3 [] 0 0 0) [.waitIdle])) (fun _ => true) = true ∧
      yields (step (withTurns State.reset [.host .readStatus, .sequencer])) (fun t => t.turns == [.sequencer]) = true ∧
      yields (step (starting State.reset 2)) (fun _ => true) = true ∧
      (starting State.reset 2).turns.head? ≠ some (.host .readStatus) ∧
      (starting State.reset 2).turns.head? ≠ some (.host .readRes) ∧
      (withTurns State.reset [.host .readStatus]).turns.head? ≠ some (.host .reset) := by decide

theorem witness_MicroOperationsIgnoreThePorts : Instr.init.format = .ph ∧ Instr.ldw.format = .ph := by decide

/-- Another sequence that agrees on the one byte `ODDB` reads. -/
theorem witness_ReadsOnlyTheTabledAccess :
    decodePhase (atPhase 4 [5, 6, 7] 0 3 0).ph = .ok .oddb ∧ (atPhase 4 [5, 6, 7] 0 3 0).accessed = [0] ∧
      ∀ a, a ∈ (atPhase 4 [5, 6, 7] 0 3 0).accessed →
        (Memory.ofBytes [5]).read a = (atPhase 4 [5, 6, 7] 0 3 0).data.read a := by decide

/-- Two states with other bytes and another seed. -/
theorem witness_ControlDependsOnLengthOnly :
    Instr.tail2.format = .ph ∧ Instr.tail2 ≠ .ldw ∧ (atPhase 7 [5, 6] 0 2 0).n = (atPhase 7 [8, 9] 0 2 0).n ∧
      yields (exec .tail2 (atPhase 7 [5, 6] 0 2 0)) (fun _ => true) = true ∧
      yields (exec .tail2 { atPhase 7 [8, 9] 0 2 0 with a := 3 }) (fun _ => true) = true := by decide

/-- At `CHUNK8` with 8 bytes left, and at the end. -/
theorem witness_CursorIsNeverRewound :
    (atPhase 6 vec8 0 8 1).Inv ∧ (atPhase 6 vec8 0 8 1).sequencerHasTurn ∧
      yields (step (atPhase 6 vec8 0 8 1)) (fun t => t.off == 8) = true ∧
      (atPhase 10 vec8 8 0 0).Inv ∧ yields (step (atPhase 10 vec8 8 0 0)) (fun _ => true) = true :=
  ⟨by decide, by decide, by decide, by decide, by decide⟩

theorem witness_EveryStepKeepsTheInvariant :
    (atPhase 2 (counting 32) 0 32 3).Inv ∧ yields (step (atPhase 2 (counting 32) 0 32 3)) (fun t => t.l == 0) = true ∧
      (starting State.reset 2).Inv ∧ yields (step (starting State.reset 2)) (fun _ => true) = true :=
  ⟨by decide, by decide, by decide, by decide⟩

theorem witness_SequencerNeverStops :
    (atPhase 7 [5, 6] 0 2 0).Inv ∧ (atPhase 7 [5, 6] 0 2 0).served ∧ (atPhase 7 [5, 6] 0 2 0).sequencerHasTurn :=
  ⟨by decide, fun _ => by decide, by decide⟩

theorem witness_HashRunComputesHash64 :
    (atPhase 1 vec8 0 0 0).ph = 1 ∧ (atPhase 1 vec8 0 0 0).turns = [] ∧
      (atPhase 1 vec8 0 0 0).data = Memory.ofBytes vec8 ∧ vec8.length < 2 ^ 64 ∧
      (atPhase 1 vec8 0 0 0).n = BitVec.ofNat 64 vec8.length ∧ 0 < hashSteps vec8.length := by decide

/-- Both outcomes: the last valid offset and the one after it. -/
theorem witness_LoadCommandDeliversTheWord :
    (loaded vec8).ph = 0 ∧ (loaded vec8).fcode = 0 ∧ (loaded vec8).data = Memory.ofBytes vec8 ∧ vec8.length < 2 ^ 64 ∧
      (withTurns (loaded vec8) [.host (.start 0x01 0 (BitVec.ofNat 64 vec8.length))]).turns =
        [.host (.start 0x01 0 (BitVec.ofNat 64 vec8.length))] ∧
      le64 vec8 (0 : Word).toNat = some 0xEFCDAB8967452301 ∧ le64 vec8 (1 : Word).toNat = none := by decide

/-- The hypotheses are those of `HashRunComputesHash64`; here for the empty sequence. -/
theorem witness_EveryByteIsReadOnce :
    (atPhase 1 [] 0 0 0).ph = 1 ∧ (atPhase 1 [] 0 0 0).turns = [] ∧ (atPhase 1 [] 0 0 0).data = Memory.ofBytes [] ∧
      ([] : List Byte).length < 2 ^ 64 ∧ (atPhase 1 [] 0 0 0).n = BitVec.ofNat 64 ([] : List Byte).length := by decide

theorem witness_EmptyInputDigest :
    (atPhase 1 [] 0 0 0).ph = 1 ∧ (atPhase 1 [] 0 0 0).turns = [] ∧ (atPhase 1 [] 0 0 0).n = 0 ∧
      (atPhase 1 [] 0 0 0).data = [] := by decide

theorem witness_HostProgramGetsTheDigest :
    (loaded []).ph = 0 ∧ (loaded []).fcode = 0 ∧ vec8.length < 2 ^ 64 ∧
      (withTurns (loaded []) (programTurns 0 [.data vec8, .hash64 1])).turns = programTurns 0 [.data vec8, .hash64 1] := by
  decide

/-- Two instances with different registers, after `START` and after `LDW`. -/
theorem witness_CommandsLeaveNoTrace :
    (starting (loaded vec8) 0x01).ph = 0 ∧ (starting (loaded vec8) 0x01).fcode = 0 ∧
      (starting { loaded vec8 with x := 5, a := 6, done := true } 0x01).data = (starting (loaded vec8) 0x01).data ∧
      (starting { loaded vec8 with x := 5, a := 6, done := true } 0x01).params = (starting (loaded vec8) 0x01).params ∧
      yields (run 1 (starting (loaded vec8) 0x01)) (fun _ => true) = true ∧
      yields (run 2 (withTurns (loaded vec8) [.host (.start 0x01 0 8)])) (fun t => t.res == 0xEFCDAB8967452301) = true := by
  decide

/-- One byte too many and one too few for `LEN`, for the load and for the hash; another START on top. -/
theorem witness_WrongLengthGivesNoResult :
    [{ atPhase 11 vec8 0 0 0 with n := 9 }, { atPhase 11 vec8 0 0 0 with n := 7 }, { atPhase 1 vec8 0 0 0 with n := 0 }].all
      (fun s => s.busy && !s.lengthIsTrue && decide s.phaseOk && decide s.sequencerHasTurn) = true ∧
    yields (step (withTurns { atPhase 11 vec8 0 0 0 with n := 9 } [.host .readStatus])) (fun t => t.ph == 11) = true ∧
    yields (step (starting { atPhase 11 vec8 0 0 0 with n := 9 } 1)) (fun t => t.status == 0x44) = true := by decide

end Sys2Proof.Tests
end

section
/-! The rotation of 00_scope.md R16: it is the library's left rotation of a 64-bit word, which gives its bit map. -/

namespace Sys2Proof.Machine

theorem rotl64_eq_rotateLeft (v : Word) {n : Nat} (hn : n < 64) : rotl64 v n = v.rotateLeft n := by
  rw [rotl64, BitVec.rotateLeft_def, Nat.mod_eq_of_lt hn]

/-- The case split is on whether bit `k` wraps around: either it moves up by `n`, or it comes from the upper `n` bits. -/
theorem getLsbD_rotl64_add_mod (v : Word) {n k : Nat} (hn : n < 64) (hk : k < 64) :
    (rotl64 v n).getLsbD ((k + n) % 64) = v.getLsbD k := by
  rw [rotl64_eq_rotateLeft v hn, BitVec.getLsbD_rotateLeft, Nat.mod_eq_of_lt hn]
  by_cases hstay : k + n < 64
  · simp [Nat.mod_eq_of_lt hstay, hstay]
  · have hpos : (k + n) % 64 = k + n - 64 := by omega
    have hlow : k + n - 64 < n := by omega
    have hsource : 64 - n + (k + n - 64) = k := by omega
    simp [hpos, hlow, hsource]

/-- Settles O38: the two forms are the definition, for any `n` and for 40; the bit map is that of every rotation by
less than 64, taken at 40. -/
theorem rotateMovesEachBit : Obligations.RotateMovesEachBit := by
  unfold Obligations.RotateMovesEachBit
  refine ⟨fun _ _ _ _ => rfl, fun _ => rfl, ?_⟩
  intro v k hk
  exact getLsbD_rotl64_add_mod v (by decide) hk

end Sys2Proof.Machine
end

section
/-! What one step can do, written out: `Effect` lifted from the operations to the turns (70_reset_and_hazards.md R203). -/

namespace Sys2Proof.Machine

/-- `StepEffect s t`: a step can take `s` to `t`, by the turn that does and the condition under which it does. The
registers `START` and the host's other moves write are those of 70_reset_and_hazards.md R200, R204, R205. -/
inductive StepEffect (s : State) : State → Prop where
  | resting (rest : List Turn) (turn : s.sequencerHasTurn) (hp : s.ph = Phase.idle ∨ s.ph = Phase.faulted) :
      StepEffect s { s with turns := rest }
  | operation (rest : List Turn) (i : Instr) (t : State) (turn : s.sequencerHasTurn) (hd : decodePhase s.ph = .ok i)
      (hl : s.lengthIsTrue = true) (he : Effect i { s with turns := rest } t) : StepEffect s t
  | waitEnds (rest : List Turn) (ht : s.turns = .waitIdle :: rest) (hb : s.busy = false) :
      StepEffect s { s with turns := rest }
  | startIgnored (rest : List Turn) (cmd : BitVec 8) (arg len : Word)
      (ht : s.turns = .host (.start cmd arg len) :: rest) (hp : s.ph = Phase.faulted) :
      StepEffect s { s with turns := rest, ports := ⟨cmd, arg, len⟩ }
  | startProtocol (rest : List Turn) (cmd : BitVec 8) (arg len : Word)
      (ht : s.turns = .host (.start cmd arg len) :: rest) (hb : s.busy = true) :
      StepEffect s (State.raise { s with turns := rest, ports := ⟨cmd, arg, len⟩ } .protocol)
  | startIllegal (rest : List Turn) (cmd : BitVec 8) (arg len : Word)
      (ht : s.turns = .host (.start cmd arg len) :: rest) (hp : s.ph = Phase.idle) (h1 : cmd ≠ 1#8) (h2 : cmd ≠ 2#8) :
      StepEffect s (State.raise { s with turns := rest, ports := ⟨cmd, arg, len⟩ } .illegalCmd)
  | startLatched (rest : List Turn) (cmd : BitVec 8) (arg len : Word) (entry : BitVec 4)
      (ht : s.turns = .host (.start cmd arg len) :: rest) (hp : s.ph = Phase.idle)
      (hc : cmd = 1#8 ∧ entry = Phase.ldw ∨ cmd = 2#8 ∧ entry = Phase.init) :
      StepEffect s { s with
        turns := rest, ports := ⟨cmd, arg, len⟩, a := arg, n := len, done := false, ph := entry }
  | readStatus (rest : List Turn) (ht : s.turns = .host .readStatus :: rest) :
      StepEffect s { s with turns := rest, observed := .status s.status :: s.observed }
  | readRes (rest : List Turn) (ht : s.turns = .host .readRes :: rest) (hd : s.done = true) :
      StepEffect s { s with turns := rest, observed := .res s.res :: s.observed }
  | readResFree (rest : List Turn) (ht : s.turns = .host .readRes :: rest) (hd : s.done = false) :
      StepEffect s { s with
        turns := rest, observed := .res (Config.freeWord s.freeCount) :: s.observed, freeCount := s.freeCount + 1 }
  | reset (rest : List Turn) (ht : s.turns = .host .reset :: rest) :
      StepEffect s (State.resetEvent { s with turns := rest })
  | setData (rest : List Turn) (bytes : List Byte) (ht : s.turns = .host (.setData bytes) :: rest)
      (hb : s.busy = false) (hw : WellFormed.sequence bytes = true) :
      StepEffect s { s with turns := rest, data := Memory.ofBytes bytes }

/-- The sequencer's turn, with the turns `rest` to come, is one of the effects. -/
theorem sequencerTurn_stepEffect (s t : State) (rest : List Turn) (turn : s.sequencerHasTurn)
    (h : sequencerTurn { s with turns := rest } = .next t) : StepEffect s t := by
  rcases sequencerTurn_eq_next _ _ h with ⟨hp, rfl⟩ | ⟨i, hd, hl, he⟩
  · exact .resting rest turn hp
  · exact .operation rest i t turn hd hl (exec_effect _ _ _ he)

/-- START, with its word legal or not, is one of the effects (70_reset_and_hazards.md R204). -/
theorem startMove_stepEffect (s t : State) (rest : List Turn) (cmd : BitVec 8) (arg len : Word)
    (ht : s.turns = .host (.start cmd arg len) :: rest)
    (h : startMove { s with turns := rest } cmd arg len = .next t) : StepEffect s t := by
  have legal : ∀ entry, cmd = 1#8 ∧ entry = Phase.ldw ∨ cmd = 2#8 ∧ entry = Phase.init →
      StepEffect s (State.start { s with turns := rest, ports := ⟨cmd, arg, len⟩ } entry) := by
    intro entry hc
    rcases State.start_cases { s with turns := rest, ports := ⟨cmd, arg, len⟩ } entry with
      ⟨hp, e⟩ | ⟨hb, e⟩ | ⟨hp, e⟩ <;> rw [e]
    · exact .startIgnored rest cmd arg len ht hp
    · exact .startProtocol rest cmd arg len ht hb
    · exact .startLatched rest cmd arg len entry ht hp hc
  rw [startMove_eq] at h
  obtain rfl := Host.Outcome.next.inj h
  dsimp only
  split
  · rename_i h2
    exact legal _ (.inr ⟨h2, rfl⟩)
  · rename_i h2
    split
    · rename_i h1
      exact legal _ (.inl ⟨h1, rfl⟩)
    · rename_i h1
      rcases State.startIllegal_cases { s with turns := rest, ports := ⟨cmd, arg, len⟩ } with
        ⟨hp, e⟩ | ⟨hb, e⟩ | ⟨hp, e⟩ <;> rw [e]
      · exact .startIgnored rest cmd arg len ht hp
      · exact .startProtocol rest cmd arg len ht hb
      · exact .startIllegal rest cmd arg len ht hp h1 h2

/-- Each move of the host is one of the effects. -/
theorem hostMove_stepEffect (s t : State) (m : HostMove) (rest : List Turn) (ht : s.turns = .host m :: rest)
    (h : hostMove m { s with turns := rest } = .next t) : StepEffect s t := by
  cases m with
  | start cmd arg len => exact startMove_stepEffect s t rest cmd arg len ht h
  | readStatus => cases h; exact .readStatus rest ht
  | readRes =>
    simp only [hostMove, readRes] at h
    split at h
    · rename_i hd
      cases h
      exact .readRes rest ht hd
    · rename_i hd
      cases h
      exact .readResFree rest ht (Bool.eq_false_iff.2 hd)
  | reset => cases h; exact .reset rest ht
  | setData bytes =>
    simp only [hostMove, setDataMove] at h
    split at h
    · cases h
    · rename_i hb
      split at h
      · rename_i hw
        cases h
        exact .setData rest bytes ht (Bool.eq_false_iff.2 hb) hw
      · cases h

/-- What a step does is one of the effects. -/
theorem step_effect (s t : State) (h : step s = .next t) : StepEffect s t := by
  rcases step_eq_next s t h with ⟨turn, rest, h⟩ | ⟨rest, ht, hb, rfl⟩ | ⟨m, rest, ht, h⟩
  · exact sequencerTurn_stepEffect s t rest turn h
  · exact .waitEnds rest ht hb
  · exact hostMove_stepEffect s t m rest ht h

/-- An operation with a phase code is no command (30_encoding.md R75). -/
theorem not_command_of_decodePhase (c : BitVec 4) (i : Instr) (h : decodePhase c = .ok i) :
    i ∉ [Instr.ldle64, .hash64] := by
  have e := decodePhase_eq_ok c i h
  rintro hi
  rcases List.mem_pair.1 hi with rfl | rfl <;> cases e

end Sys2Proof.Machine
end

section
/-! The write entries of the access matrix (10_state.md R36), a row's blank as a frame of `Effect`. -/

namespace Sys2Proof.Machine

section Frames

variable {i : Instr} {s t : State}

/-- `A` and `N` are written by the commands alone. -/
theorem Effect.latches_eq (he : Effect i s t) (hi : i ∉ [Instr.ldle64, .hash64]) : t.a = s.a ∧ t.n = s.n := by
  cases he
  case ldle64Latched | hash64Latched => simp at hi
  all_goals exact ⟨rfl, rfl⟩

/-- The parameters are written by none (10_state.md R31). -/
theorem Effect.params_eq (he : Effect i s t) : t.params = s.params := by
  cases he <;> rfl

theorem Effect.turns_eq (he : Effect i s t) : t.turns = s.turns := by
  cases he <;> rfl

theorem Effect.lanes_eq (he : Effect i s t)
    (hi : i ∉ [Instr.init, .bulk, .leninj, .oddb, .fin0, .chunk8, .tail2]) : t.h = s.h := by
  cases he
  case init | bulkWord | leninj | oddbOdd | fin0 | chunk8Word | tail2Pair | tail2Single => simp at hi
  all_goals rfl

theorem Effect.upper_lanes_eq (he : Effect i s t) (hi : i ∈ [Instr.leninj, .oddb, .fin0]) :
    t.h.h1 = s.h.h1 ∧ t.h.h2 = s.h.h2 ∧ t.h.h3 = s.h.h3 := by
  cases he
  case leninj | oddbEven | oddbOdd | fin0 => exact ⟨rfl, rfl, rfl⟩
  all_goals simp at hi

theorem Effect.bulk_lane_eq (he : Effect .bulk s t) (j k : Fin 4) (hk : s.i.toNat = k.val) (hj : j ≠ k)
    (hj' : j ≠ k + 1) : t.h.get j = s.h.get j := by
  cases he
  case bulkExit => rfl
  case bulkWord k' w hc hk' hw =>
    obtain rfl : k = k' := Fin.ext (hk.symm.trans hk')
    rw [State.absorb_h, absorbWord_get, if_neg hj', if_neg hj]

theorem Effect.indexed_lane_eq (he : Effect i s t) (hi : i ∈ [Instr.chunk8, .tail2]) (j : Fin 4)
    (hj : s.i.toNat ≠ j.val) : t.h.get j = s.h.get j := by
  cases he
  case chunk8Exit | chunk8LaneIndex | tail2Exit | tail2LaneIndex => rfl
  case chunk8Word k _ _ hk _ | tail2Pair k _ _ hk _ | tail2Single k _ _ hk _ =>
    exact Lanes.get_set_ne _ k j _ fun e => hj (e ▸ hk)
  all_goals simp at hi

theorem Effect.cursor_eq (he : Effect i s t) (hi : i ∉ [Instr.init, .bulk, .oddb, .chunk8, .tail2]) :
    t.l = s.l ∧ t.off = s.off := by
  cases he
  case init | bulkWord | oddbOdd | chunk8Word | tail2Pair | tail2Single => simp at hi
  all_goals exact ⟨rfl, rfl⟩

theorem Effect.index_eq (he : Effect i s t) (hi : i ∉ [Instr.init, .bulk, .fin0, .chunk8, .tail2]) : t.i = s.i := by
  cases he
  case init | bulkWord | fin0 | chunk8Exit | chunk8Word | tail2Pair | tail2Single => simp at hi
  all_goals rfl

theorem Effect.x_eq (he : Effect i s t) (hi : i ∉ [Instr.combine, .aval]) : t.x = s.x := by
  cases he
  case combine | aval => simp at hi
  all_goals rfl

theorem Effect.res_eq (he : Effect i s t) (hi : i ∉ [Instr.ret, .ldw]) : t.res = s.res := by
  cases he
  case ret | ldwWord => simp at hi
  all_goals rfl

/-- An operation enters a fault, or it leaves `FCODE`, is not how a block comes to `FAULTED`, and writes `DONE` by
the rows of `RET`, `LDW` and the commands (10_state.md R29, R36). -/
theorem Effect.raise_or_not (he : Effect i s t) :
    (∃ c, t = s.raise c) ∨
    (t.fcode = s.fcode ∧ (t.ph = Phase.faulted → s.ph = Phase.faulted) ∧
      (t.done = s.done ∨ i ∈ [Instr.ret, .ldw] ∨ i ∈ [Instr.ldle64, .hash64])) := by
  cases he
  case ldle64Protocol | hash64Protocol | chunk8LaneIndex | tail2LaneIndex | ldwBounds => exact .inl ⟨_, rfl⟩
  case ldle64Ignored | hash64Ignored => exact .inr ⟨rfl, id, .inl rfl⟩
  case ldle64Latched | hash64Latched | ret | ldwWord =>
    exact .inr ⟨rfl, fun h => absurd h (by simp), .inr (by simp)⟩
  all_goals exact .inr ⟨rfl, fun h => absurd h (by simp), .inl rfl⟩

end Frames

/-- Settles O40, clause by clause from the frames of `Effect`. -/
theorem accessMatrixWrites : Obligations.AccessMatrixWrites := by
  unfold Obligations.AccessMatrixWrites
  intro i s t h
  have he := exec_effect i s t h
  refine ⟨he.latches_eq, he.lanes_eq, he.upper_lanes_eq, ?_, he.indexed_lane_eq, he.cursor_eq, he.index_eq, he.x_eq,
    he.res_eq, ?_, ?_⟩
  · rintro rfl
    exact he.bulk_lane_eq
  · intro hd
    rcases he.raise_or_not with ⟨c, rfl⟩ | ⟨-, -, hs | hi | hi⟩
    · exact .inr rfl
    · exact absurd hs hd
    · exact .inl (List.mem_append_right [Instr.ldle64, .hash64] hi)
    · exact .inl (List.mem_append_left [Instr.ret, .ldw] hi)
  · intro hf
    rcases he.raise_or_not with ⟨c, rfl⟩ | ⟨hs, -, -⟩
    · rfl
    · exact absurd hs hf

end Sys2Proof.Machine
end

section
/-! The registers of 10_state.md over every step: the latches and the parameters, `DONE` and `FCODE`, `STATUS`. -/

namespace Sys2Proof.Machine

/-- A move of the host is not the sequencer's turn. -/
theorem not_sequencerHasTurn_of_head?_host {s : State} {m : HostMove} (hm : s.turns.head? = some (.host m)) :
    ¬ s.sequencerHasTurn := by
  rintro (h | h | ⟨h, -⟩) <;> simp [h] at hm

/-- The phase of an operation that is one of `RET` and `LDW` (10_state.md R27). -/
theorem phase_of_decodePhase_ret_ldw (c : BitVec 4) (i : Instr) (h : decodePhase c = .ok i)
    (hi : i ∈ [Instr.ret, .ldw]) : c = 10 ∨ c = 11 := by
  have e := decodePhase_eq_ok c i h
  rcases List.mem_pair.1 hi with rfl | rfl
  · exact .inl (Code.ph.inj e).symm
  · exact .inr (Code.ph.inj e).symm

section Steps

variable {s t : State}

/-- What a step does when it is the sequencer's: nothing in `IDLE` and `FAULTED`, else the operation `PH` holds. -/
theorem StepEffect.of_sequencerHasTurn (he : StepEffect s t) (turn : s.sequencerHasTurn) :
    ((s.ph = Phase.idle ∨ s.ph = Phase.faulted) ∧ ∃ rest, t = { s with turns := rest }) ∨
      ∃ rest i, decodePhase s.ph = .ok i ∧ s.lengthIsTrue = true ∧ Effect i { s with turns := rest } t := by
  cases he
  case resting rest _ hp => exact .inl ⟨hp, rest, rfl⟩
  case operation rest i _ hd hl he => exact .inr ⟨rest, i, hd, hl, he⟩
  case waitEnds ht hb => rcases turn with h | h | ⟨-, h⟩ <;> simp [ht, hb] at h
  case readStatus ht | readRes ht _ | readResFree ht _ | reset ht | startIgnored ht _ | startProtocol ht _ |
      startIllegal ht _ _ _ | startLatched ht _ _ | setData ht _ _ =>
    exact absurd turn (not_sequencerHasTurn_of_head?_host (by rw [ht]; rfl))

theorem StepEffect.params_eq (he : StepEffect s t) : t.params = s.params := by
  cases he
  case operation he => exact he.params_eq
  all_goals rfl

/-- `A` and `N` are kept but by reset and by a START in `IDLE`, which latches what it presents (10_state.md R22, R23). -/
theorem StepEffect.latches (he : StepEffect s t) :
    (t.a = s.a ∧ t.n = s.n) ∨ s.turns.head? = some (.host .reset) ∨
      (s.ph = Phase.idle ∧ ∃ cmd arg len, s.turns.head? = some (.host (.start cmd arg len)) ∧ t.a = arg ∧ t.n = len) := by
  cases he
  case operation _ i _ hd _ he => exact .inl (he.latches_eq (not_command_of_decodePhase _ i hd))
  case reset ht => exact .inr (.inl (by rw [ht]; rfl))
  case startLatched cmd arg len _ ht hp _ => exact .inr (.inr ⟨hp, cmd, arg, len, by rw [ht]; rfl, rfl, rfl⟩)
  all_goals exact .inl ⟨rfl, rfl⟩

/-- `DONE` rises in the turns of `RET` and `LDW` alone. -/
theorem StepEffect.done_rises (he : StepEffect s t) (h1 : t.done = true) (h0 : s.done = false) :
    s.sequencerHasTurn ∧ (s.ph = 10 ∨ s.ph = 11) := by
  have kept : t.done ≠ s.done := by rw [h1, h0]; decide
  cases he
  case operation i turn hd _ he =>
    rcases he.raise_or_not with ⟨c, rfl⟩ | ⟨-, -, hs | hi | hi⟩
    · exact absurd h1 Bool.false_ne_true
    · exact absurd hs kept
    · exact ⟨turn, phase_of_decodePhase_ret_ldw _ i hd hi⟩
    · exact absurd hi (not_command_of_decodePhase _ i hd)
  case startProtocol | startIllegal | startLatched | reset => exact absurd h1 Bool.false_ne_true
  all_goals exact absurd rfl kept

/-- A START that is not ignored leaves `DONE` at 0. -/
theorem StepEffect.done_of_start (he : StepEffect s t) {cmd : BitVec 8} {arg len : Word}
    (hm : s.turns.head? = some (.host (.start cmd arg len))) (hp : s.ph ≠ Phase.faulted) : t.done = false := by
  cases he
  case startProtocol | startIllegal | startLatched => rfl
  case startIgnored hp' => exact absurd hp' hp
  case resting turn _ | operation turn _ _ _ => exact absurd turn (not_sequencerHasTurn_of_head?_host hm)
  case waitEnds ht _ | readStatus ht | readRes ht _ | readResFree ht _ | reset ht | setData ht _ _ => simp [ht] at hm

/-- Reset leaves `DONE` and `FCODE` at 0. -/
theorem StepEffect.flags_of_reset (he : StepEffect s t) (hm : s.turns.head? = some (.host .reset)) :
    t.done = false ∧ t.fcode = 0 := by
  cases he
  case reset => exact ⟨rfl, rfl⟩
  case resting turn _ | operation turn _ _ _ => exact absurd turn (not_sequencerHasTurn_of_head?_host hm)
  case waitEnds ht _ | readStatus ht | readRes ht _ | readResFree ht _ | startIgnored ht _ | startProtocol ht _ |
      startIllegal ht _ _ _ | startLatched ht _ _ | setData ht _ _ => simp [ht] at hm

/-- A step that comes to `FAULTED` leaves `DONE` at 0. -/
theorem StepEffect.done_of_faulted (he : StepEffect s t) (ht : t.ph = Phase.faulted) (hs : s.ph ≠ Phase.faulted) :
    t.done = false := by
  cases he
  case operation he =>
    rcases he.raise_or_not with ⟨c, rfl⟩ | ⟨-, hph, -⟩
    · rfl
    · exact absurd (hph ht) hs
  case startProtocol | startIllegal | startLatched | reset => rfl
  all_goals exact absurd ht hs

/-- `FCODE` changes by a step that comes to `FAULTED`, or by reset. -/
theorem StepEffect.fcode_changes (he : StepEffect s t) (hf : t.fcode ≠ s.fcode) :
    (s.ph ≠ Phase.faulted ∧ t.ph = Phase.faulted) ∨ s.turns.head? = some (.host .reset) := by
  cases he
  case operation i _ hd _ he =>
    rcases he.raise_or_not with ⟨c, rfl⟩ | ⟨hs, -, -⟩
    · refine .inl ⟨fun hp => ?_, rfl⟩
      rw [hp] at hd
      cases hd
    · exact absurd hs hf
  case startProtocol hb =>
    refine .inl ⟨fun hp => ?_, rfl⟩
    simp [State.busy, hp] at hb
  case startIllegal hp _ _ => exact .inl ⟨by rw [hp]; exact idle_ne_faulted, rfl⟩
  case reset ht => exact .inr (by rw [ht]; rfl)
  all_goals exact absurd rfl hf

end Steps

/-- Settles O41, from what a step does to the latches and the parameters. -/
theorem latchesAndParametersHold : Obligations.LatchesAndParametersHold := by
  unfold Obligations.LatchesAndParametersHold
  intro s t h
  have he := step_effect s t h
  refine ⟨he.params_eq, fun hchanged => ?_⟩
  rcases he.latches with ⟨ha, hn⟩ | hwriter
  · exact absurd hchanged (by simp [ha, hn])
  · exact hwriter

/-- Settles O17, clause by clause over the effects of a step. -/
theorem doneAndFcodeWriters : Obligations.DoneAndFcodeWriters := by
  unfold Obligations.DoneAndFcodeWriters
  intro s t h
  have he := step_effect s t h
  refine ⟨he.done_rises, ?_, he.done_of_faulted, he.flags_of_reset, he.fcode_changes⟩
  rintro ⟨cmd, arg, len, rest, ht⟩ hp
  exact he.done_of_start (by rw [ht]; rfl) hp

/-- Settles O15: the values are those of the literal `State.reset`. -/
theorem resetStateValues : Obligations.ResetStateValues := by
  unfold Obligations.ResetStateValues
  decide

theorem State.busy_eq_decide (s : State) : s.busy = decide (s.ph ≠ 0 ∧ s.ph ≠ 15) := by
  simp [State.busy, bne, beq_eq_decide]

/-- The fields of a status byte put together as `State.status` does, whatever they hold (10_state.md R29). -/
theorem status_fields (fcode : BitVec 3) (fault done busy : Bool) :
    let v : BitVec 8 := 0#1 ++ (fcode ++ (0#1 ++ (BitVec.ofBool fault ++ (BitVec.ofBool done ++ BitVec.ofBool busy))))
    v.getLsbD 0 = busy ∧ v.getLsbD 1 = done ∧ v.getLsbD 2 = fault ∧ v.getLsbD 3 = false ∧
      v.extractLsb' 4 3 = fcode ∧ v.getLsbD 7 = false := by
  revert fcode fault done busy
  decide

/-- Settles O16: the layout of the fields, with `BUSY` and `FAULT` read as conditions on `PH`. -/
theorem statusLayout : Obligations.StatusLayout := by
  unfold Obligations.StatusLayout
  intro s
  have hfaulted : s.faulted = decide (s.ph = 15) := rfl
  rw [← s.busy_eq_decide, ← hfaulted]
  exact status_fields s.fcode s.faulted s.done s.busy

end Sys2Proof.Machine
end

section
/-! The cursor of 10_state.md R24: `off` and `l` move by the same amount and never wrap. -/

namespace Sys2Proof.Machine

/-- From `s` to `t` the cursor went up by what the remainder went down (10_state.md R24). -/
def State.CursorAdvances (s t : State) : Prop :=
  s.off.toNat ≤ t.off.toNat ∧ t.l.toNat ≤ s.l.toNat ∧ t.off.toNat + t.l.toNat = s.off.toNat + s.l.toNat

theorem State.cursorAdvances_of_eq {s t : State} (h : t.l = s.l ∧ t.off = s.off) : s.CursorAdvances t := by
  obtain ⟨hl, hoff⟩ := h
  simp [State.CursorAdvances, hl, hoff]

/-- A move by `c` of the `l` bytes that remain, with the end of the input below `2^64`. -/
theorem State.cursorAdvances_of_move {s t : State} (c : Word) (hoff : t.off = s.off + c) (hl : t.l = s.l - c)
    (hc : c.toNat ≤ s.l.toNat) (hend : s.off.toNat + s.l.toNat < 2 ^ 64) : s.CursorAdvances t := by
  have up : t.off.toNat = s.off.toNat + c.toNat := by
    rw [hoff]
    exact BitVec.toNat_add_of_lt (by omega)
  have down : t.l.toNat = s.l.toNat - c.toNat := by
    rw [hl]
    exact BitVec.toNat_sub_of_le (BitVec.le_def.2 hc)
  unfold State.CursorAdvances
  omega

/-- Every operation but `INIT` advances the cursor, if a bulk block once begun is whole (43_hash64_sequence.md R144). -/
theorem Effect.cursorAdvances {i : Instr} {s t : State} (he : Effect i s t) (hi : i ≠ .init)
    (hend : s.off.toNat + s.l.toNat < 2 ^ 64) (hblock : i = .bulk → s.i ≠ 0 → 32 ≤ s.l.toNat) :
    s.CursorAdvances t := by
  cases he
  case init => exact absurd rfl hi
  case bulkWord k w hc hk hw =>
    by_cases h3 : s.i = 3
    · have whole : 32 ≤ s.l.toNat := hblock rfl (by rw [h3]; decide)
      exact State.cursorAdvances_of_move 32 (by simp [h3]) (by simp [h3]) whole hend
    · exact State.cursorAdvances_of_eq ⟨if_neg h3, if_neg h3⟩
  case oddbOdd b hl hb => exact State.cursorAdvances_of_move 1 rfl rfl (by simp; omega) hend
  case chunk8Word k w hl hk hw => exact State.cursorAdvances_of_move 8 rfl rfl hl hend
  case tail2Pair k v hl hk hv => exact State.cursorAdvances_of_move 2 rfl rfl hl hend
  case tail2Single k v hl hk hv => exact State.cursorAdvances_of_move 1 rfl rfl hl.ge hend
  all_goals exact State.cursorAdvances_of_eq ⟨rfl, rfl⟩

/-- In the phases `BULK` to `RET` the input ends at `N`, and a bulk block once begun is whole. -/
theorem State.cursorOk.end_lt {s : State} (h : s.cursorOk) (h2 : 2 ≤ s.ph.toNat) (h10 : s.ph.toNat ≤ 10) :
    s.off.toNat + s.l.toNat < 2 ^ 64 := by
  obtain ⟨hbulk, hodd, hfin0, hchunk8, htail2, hend⟩ := h
  have phases : s.ph = 2 ∨ (s.ph = 3 ∨ s.ph = 4) ∨ s.ph = 5 ∨ s.ph = 6 ∨ s.ph = 7 ∨
      (s.ph = 8 ∨ s.ph = 9 ∨ s.ph = 10) := by
    bv_omega
  have sum : s.off.toNat + s.l.toNat = s.n.toNat := by
    rcases phases with h | h | h | h | h | h
    · exact (hbulk h).1
    · exact (hodd h).1
    · exact (hfin0 h).1
    · exact (hchunk8 h).1
    · exact (htail2 h).1
    · obtain ⟨hoff, hl⟩ := hend h
      omega
  rw [sum]
  exact s.n.isLt

/-- Settles O47: in these phases the sequencer's step is an operation other than `INIT`. -/
theorem cursorIsNeverRewound : Obligations.CursorIsNeverRewound := by
  unfold Obligations.CursorIsNeverRewound
  rintro s t ⟨-, hcursor, -⟩ turn h2 h10 h
  rcases (step_effect s t h).of_sequencerHasTurn turn with ⟨hp | hp, -⟩ | ⟨rest, i, hd, -, he⟩
  · simp [hp] at h2
  · simp [hp] at h10
  · have hcode := decodePhase_eq_ok s.ph i hd
    refine he.cursorAdvances ?_ (hcursor.end_lt h2 h10) ?_
    · rintro rfl
      simp [← Code.ph.inj hcode] at h2
    · rintro rfl
      obtain ⟨-, -, -, hblock⟩ := hcursor.1 (Code.ph.inj hcode).symm
      exact hblock

end Sys2Proof.Machine
end

section
/-! One equation per branch of each meaning that has some (41_mixer.md R111, R113, R115, R116, 40_loader.md R102). -/

namespace Sys2Proof.Machine

section Branches

variable {s : State}

theorem execBulk_exit (hexit : s.i = 0 ∧ s.l.toNat < 32) : execBulk s = .next { s with ph := Phase.leninj } :=
  if_pos hexit

theorem execBulk_noLane (hexit : ¬ (s.i = 0 ∧ s.l.toNat < 32)) (hk : laneOf? s.i = none) :
    execBulk s = .fault .bulkLane := by
  rw [execBulk, if_neg hexit, hk]

theorem execBulk_word (hexit : ¬ (s.i = 0 ∧ s.l.toNat < 32)) {k : Fin 4} (hk : laneOf? s.i = some k) :
    execBulk s = withRead (s.memRead8 (bulkAddress s.off s.i)) fun w => .next (s.absorb k w) := by
  rw [execBulk, if_neg hexit, hk]

theorem execOddb_odd (hodd : s.l.getLsbD 0 = true) :
    execOddb s = withRead (s.memRead1 s.off.toNat) fun b => .next { s with
      h := { s.h with h0 := s.h.h0 ^^^ zext64 b }, off := s.off + 1, l := s.l - 1, ph := Phase.fin0 } :=
  if_pos hodd

theorem execOddb_even (hodd : ¬ s.l.getLsbD 0 = true) : execOddb s = .next { s with ph := Phase.fin0 } :=
  if_neg hodd

theorem execChunk8_exit (hchunk : ¬ 8 ≤ s.l.toNat) : execChunk8 s = .next { s with i := 0, ph := Phase.tail2 } :=
  if_neg hchunk

theorem execChunk8_noLane (hchunk : 8 ≤ s.l.toNat) (hk : laneOf? s.i = none) :
    execChunk8 s = .next (s.raise .laneIndex) := by
  rw [execChunk8, if_pos hchunk, hk]

theorem execChunk8_word (hchunk : 8 ≤ s.l.toNat) {k : Fin 4} (hk : laneOf? s.i = some k) :
    execChunk8 s = withRead (s.memRead8 s.off.toNat) fun w => .next { s with
      h := s.h.set k (mixfin (s.h.get k ^^^ w) s.params.p2)
      off := s.off + 8, l := s.l - 8, i := s.i + 1, ph := Phase.chunk8 } := by
  rw [execChunk8, if_pos hchunk, hk]

theorem execTail2_exit (hrest : ¬ 0 < s.l.toNat) : execTail2 s = .next { s with ph := Phase.combine } :=
  if_neg hrest

theorem execTail2_noLane (hrest : 0 < s.l.toNat) (hk : laneOf? s.i = none) :
    execTail2 s = .next (s.raise .laneIndex) := by
  rw [execTail2, if_pos hrest, hk]

theorem execTail2_pair (hpair : 2 ≤ s.l.toNat) {k : Fin 4} (hk : laneOf? s.i = some k) :
    execTail2 s = withRead (s.memRead2 s.off.toNat) fun v => .next (s.foldTail k (zext64 v) 2) := by
  rw [execTail2, if_pos (by omega), hk]
  exact if_pos hpair

theorem execTail2_single (hrest : 0 < s.l.toNat) (hpair : ¬ 2 ≤ s.l.toNat) {k : Fin 4} (hk : laneOf? s.i = some k) :
    execTail2 s = withRead (s.memRead1 s.off.toNat) fun v => .next (s.foldTail k (zext64 v) 1) := by
  rw [execTail2, if_pos hrest, hk]
  exact if_neg hpair

theorem execLdw_bounds (hb : s.n.toNat < s.a.toNat + 8) : execLdw s = .next (s.raise .bounds) :=
  if_pos hb

theorem execLdw_word (hb : ¬ s.n.toNat < s.a.toNat + 8) :
    execLdw s = withRead (s.memRead8 s.a.toNat) fun v => .next { s with res := v, done := true, ph := Phase.idle } :=
  if_neg hb

end Branches

end Sys2Proof.Machine
end

section
/-! What an operation does not read (10_state.md R22, R30, R36): `mapNext` over the meanings, and the registers the mixer
passes by. -/

namespace Sys2Proof.Machine

@[simp] theorem mapNext_next (f : State → State) (s : State) : mapNext f (.next s) = .next (f s) := rfl

@[simp] theorem mapNext_fault (f : State → State) (r : Fault) : mapNext f (.fault r) = .fault r := rfl

@[simp] theorem mapNext_refused (f : State → State) (r : Refusal) : mapNext f (.refused r) = .refused r := rfl

theorem mapNext_withRead {α : Type} (f : State → State) (r : Except ReadStop α)
    (k : α → Host.Outcome State Fault Refusal) :
    mapNext f (withRead r k) = withRead r fun v => mapNext f (k v) := by
  rcases r with (_ | _) | _ <;> rfl

theorem mapNext_mapNext (f g : State → State) (o : Host.Outcome State Fault Refusal) :
    mapNext f (mapNext g o) = mapNext (f ∘ g) o := by
  cases o <;> rfl

theorem mapNext_congr {f g : State → State} {o : Host.Outcome State Fault Refusal}
    (h : ∀ t, o = .next t → f t = g t) : mapNext f o = mapNext g o := by
  cases o with
  | next t => exact congrArg _ (h t rfl)
  | fault r => rfl
  | refused r => rfl

theorem mapNext_eq_next {f : State → State} {o : Host.Outcome State Fault Refusal} {t : State} :
    mapNext f o = .next t ↔ ∃ s, o = .next s ∧ f s = t := by
  cases o <;> simp

/-- Changes to the registers and the parts of the outside world that the mixer neither reads nor writes. -/
structure UnreadMap where
  x : Word → Word
  res : Word → Word
  ports : Ports → Ports
  observed : List Observed → List Observed
  freeCount : Nat → Nat

/-- A state with these changes made. -/
def State.mapUnread (f : UnreadMap) (s : State) : State :=
  { s with
    x := f.x s.x, res := f.res s.res, ports := f.ports s.ports, observed := f.observed s.observed
    freeCount := f.freeCount s.freeCount }

/-- The operations of the mixer (41_mixer.md). -/
@[simp] abbrev mixerOps : List Instr := [.init, .bulk, .leninj, .oddb, .fin0, .chunk8, .tail2]

section Mixer

variable (f : UnreadMap) (s : State)

theorem execBulk_mapUnread : execBulk (s.mapUnread f) = mapNext (State.mapUnread f) (execBulk s) := by
  by_cases hexit : s.i = 0 ∧ s.l.toNat < 32
  · rw [execBulk_exit hexit]
    exact execBulk_exit (s := s.mapUnread f) hexit
  · cases hk : laneOf? s.i with
    | none =>
      rw [execBulk_noLane hexit hk]
      exact execBulk_noLane (s := s.mapUnread f) hexit hk
    | some k =>
      rw [execBulk_word hexit hk, mapNext_withRead]
      exact execBulk_word (s := s.mapUnread f) hexit hk

theorem execOddb_mapUnread : execOddb (s.mapUnread f) = mapNext (State.mapUnread f) (execOddb s) := by
  by_cases hodd : s.l.getLsbD 0 = true
  · rw [execOddb_odd hodd, mapNext_withRead]
    exact execOddb_odd (s := s.mapUnread f) hodd
  · rw [execOddb_even hodd]
    exact execOddb_even (s := s.mapUnread f) hodd

theorem execChunk8_mapUnread : execChunk8 (s.mapUnread f) = mapNext (State.mapUnread f) (execChunk8 s) := by
  by_cases hchunk : 8 ≤ s.l.toNat
  · cases hk : laneOf? s.i with
    | none =>
      rw [execChunk8_noLane hchunk hk]
      exact execChunk8_noLane (s := s.mapUnread f) hchunk hk
    | some k =>
      rw [execChunk8_word hchunk hk, mapNext_withRead]
      exact execChunk8_word (s := s.mapUnread f) hchunk hk
  · rw [execChunk8_exit hchunk]
    exact execChunk8_exit (s := s.mapUnread f) hchunk

theorem execTail2_mapUnread : execTail2 (s.mapUnread f) = mapNext (State.mapUnread f) (execTail2 s) := by
  by_cases hrest : 0 < s.l.toNat
  · cases hk : laneOf? s.i with
    | none =>
      rw [execTail2_noLane hrest hk]
      exact execTail2_noLane (s := s.mapUnread f) hrest hk
    | some k =>
      by_cases hpair : 2 ≤ s.l.toNat
      · rw [execTail2_pair hpair hk, mapNext_withRead]
        exact execTail2_pair (s := s.mapUnread f) hpair hk
      · rw [execTail2_single hrest hpair hk, mapNext_withRead]
        exact execTail2_single (s := s.mapUnread f) hrest hpair hk
  · rw [execTail2_exit hrest]
    exact execTail2_exit (s := s.mapUnread f) hrest

/-- The mixer passes `x`, `RES`, the ports, the host and the free values by (10_state.md R36). -/
theorem exec_mapUnread (i : Instr) (hi : i ∈ mixerOps) :
    exec i (s.mapUnread f) = mapNext (State.mapUnread f) (exec i s) := by
  cases i
  case init | leninj | fin0 => rfl
  case bulk => exact execBulk_mapUnread f s
  case oddb => exact execOddb_mapUnread f s
  case chunk8 => exact execChunk8_mapUnread f s
  case tail2 => exact execTail2_mapUnread f s
  all_goals simp at hi

end Mixer

/-- `LDW` does not read the command port (10_state.md R22). -/
theorem execLdw_ports (s : State) (q : Ports) :
    execLdw { s with ports := q } = mapNext (fun t => { t with ports := q }) (execLdw s) := by
  by_cases hb : s.n.toNat < s.a.toNat + 8
  · rw [execLdw_bounds hb]
    exact execLdw_bounds (s := { s with ports := q }) hb
  · rw [execLdw_word hb, mapNext_withRead]
    exact execLdw_word (s := { s with ports := q }) hb

/-- Settles O44: for the mixer the ports are among what it passes by; the finalizer has no branch. -/
theorem microOperationsIgnoreThePorts : Obligations.MicroOperationsIgnoreThePorts := by
  unfold Obligations.MicroOperationsIgnoreThePorts
  intro i s q hi
  have mixer := exec_mapUnread ⟨id, id, fun _ => q, id, id⟩ s i
  cases i
  case ldle64 | hash64 => cases hi
  case combine | aval | ret => rfl
  case ldw => exact execLdw_ports s q
  all_goals exact mixer (by decide)

end Sys2Proof.Machine
end

section
/-! Two runs of one command (10_state.md R38, 43_hash64_sequence.md R150). `State.live` clears every register that the phase
has yet to write before it is read, or never reads again; a step and `STATUS` are the same function of what is left. -/

namespace Sys2Proof.Machine

/-- The lanes, the cursor and `i` count from `INIT`'s end to `COMBINE`. -/
def State.mixing (s : State) : Bool := 2 ≤ s.ph.toNat && s.ph.toNat ≤ 8

/-- What can still reach the ports (10_state.md R36, R37): `A` and `N` while `BUSY`, the lanes and the cursor while they are
mixed, `x` at `AVAL` and `RET`, `RES` while `DONE = 1`; the other registers, the ports and what was observed are cleared. -/
def State.live (s : State) : State :=
  { s with
    h := if s.mixing then s.h else ⟨0, 0, 0, 0⟩
    a := if s.busy then s.a else 0
    n := if s.busy then s.n else 0
    l := if s.mixing then s.l else 0
    off := if s.mixing then s.off else 0
    i := if s.mixing then s.i else 0
    x := if s.ph = Phase.aval ∨ s.ph = Phase.ret then s.x else 0
    res := if s.done then s.res else 0
    ports := ⟨0, 0, 0⟩, observed := [], freeCount := 0 }

/-- `State.live` as changes to what the mixer passes by. -/
def State.liveMap (s : State) : UnreadMap :=
  ⟨fun _ => 0, fun r => if s.done then r else 0, fun _ => ⟨0, 0, 0⟩, fun _ => [], fun _ => 0⟩

@[simp] theorem State.live_live (s : State) : s.live.live = s.live := by
  unfold State.live State.mixing State.busy
  dsimp only
  congr 1 <;> split_ifs <;> rfl

/-- In the phases of the mixer all it reads or writes is kept. -/
theorem State.live_of_mixer {s : State} (h2 : 2 ≤ s.ph.toNat) (h7 : s.ph.toNat ≤ 7) :
    s.live = s.mapUnread s.liveMap := by
  have hmixing : s.mixing = true := by simp [State.mixing]; omega
  have hbusy : s.busy = true := by rw [State.busy_eq_decide]; simp; bv_omega
  have hx : ¬ (s.ph = Phase.aval ∨ s.ph = Phase.ret) := by simp; bv_omega
  simp only [State.live, if_pos hmixing, if_pos hbusy, if_neg hx]
  rfl

/-- A register the mixer passes by makes no difference to what is left after it, if `DONE` did not rise. -/
theorem State.live_mapUnread_liveMap {s t : State} (hd : t.done = s.done ∨ t.done = false)
    (hp : ¬ (t.ph = Phase.aval ∨ t.ph = Phase.ret)) :
    (t.mapUnread s.liveMap).live = t.live := by
  have hres : (if t.done then (if s.done then t.res else 0) else 0) = if t.done then t.res else 0 := by
    rcases hd with hd | hd <;> cases h : s.done <;> simp [hd, h]
  unfold State.live State.mapUnread State.liveMap State.mixing State.busy
  dsimp only
  rw [hres, if_neg hp, if_neg hp]

/-- `AVAL` and `RET` follow on the finalizer alone (43_hash64_sequence.md R141). -/
theorem Effect.not_finishing_of_mixer {i : Instr} {s t : State} (he : Effect i s t)
    (hi : i ∈ mixerOps) : ¬ (t.ph = Phase.aval ∨ t.ph = Phase.ret) := by
  cases he
  case combine | aval | ldle64Ignored | hash64Ignored => simp at hi
  all_goals simp

/-- The mixer leaves `DONE` or, entering a fault, clears it. -/
theorem Effect.done_of_mixer {i : Instr} {s t : State} (he : Effect i s t)
    (hi : i ∈ mixerOps) : t.done = s.done ∨ t.done = false := by
  rcases he.raise_or_not with ⟨c, rfl⟩ | ⟨-, -, hs | h | h⟩
  · exact .inr rfl
  · exact .inl hs
  · rcases List.mem_pair.1 h with rfl | rfl <;> simp at hi
  · rcases List.mem_pair.1 h with rfl | rfl <;> simp at hi

theorem exec_live_of_mixer {i : Instr} {s : State}
    (hi : i ∈ mixerOps) (h2 : 2 ≤ s.ph.toNat) (h7 : s.ph.toNat ≤ 7) :
    mapNext State.live (exec i s.live) = mapNext State.live (exec i s) := by
  rw [State.live_of_mixer h2 h7, exec_mapUnread _ _ _ hi, mapNext_mapNext]
  refine mapNext_congr fun t h => ?_
  have he := exec_effect i s t h
  exact State.live_mapUnread_liveMap (he.done_of_mixer hi) (he.not_finishing_of_mixer hi)

theorem execLdw_live {s : State} (hp : s.ph = Phase.ldw) :
    mapNext State.live (execLdw s.live) = mapNext State.live (execLdw s) := by
  have hbusy : s.busy = true := by rw [State.busy, hp]; decide
  have ha : s.live.a = s.a := if_pos hbusy
  have hn : s.live.n = s.n := if_pos hbusy
  by_cases hb : s.n.toNat < s.a.toNat + 8
  · rw [execLdw_bounds hb, execLdw_bounds (by rwa [ha, hn])]
    simp [State.live, State.mixing, State.busy]
  · have hread : s.live.memRead8 s.live.a.toNat = s.memRead8 s.a.toNat := by
      rw [State.memRead8, State.memRead, ha, hn]
      rfl
    rw [execLdw_word hb, execLdw_word (by rwa [ha, hn]), hread]
    simp [mapNext_withRead, State.live, State.mixing, State.busy]

/-- The operation `PH` holds does the same to what is left, whatever the cleared registers held. -/
theorem exec_live {i : Instr} {s : State} (hd : decodePhase s.ph = .ok i) :
    mapNext State.live (exec i s.live) = mapNext State.live (exec i s) := by
  have hcode := decodePhase_eq_ok s.ph i hd
  cases i
  case ldle64 | hash64 => cases hcode
  case bulk | leninj | oddb | fin0 | chunk8 | tail2 =>
    have hp := Code.ph.inj hcode
    exact exec_live_of_mixer (by decide) (by rw [← hp]; decide) (by rw [← hp]; decide)
  case init | combine | aval | ret =>
    have hp := (Code.ph.inj hcode).symm
    cases hdone : s.done <;>
      simp [execInit, execCombine, execAval, execRet, State.live, State.mixing, State.busy, hp, hdone]
  case ldw => exact execLdw_live (Code.ph.inj hcode).symm

theorem sequencerTurn_live (s : State) :
    mapNext State.live (sequencerTurn s.live) = mapNext State.live (sequencerTurn s) := by
  have hph : s.live.ph = s.ph := rfl
  rcases decodePhase_cases s.ph with ⟨i, hd, -⟩ | ⟨-, he⟩ | ⟨-, he⟩ | ⟨-, he⟩
  · have hn : s.live.n = s.n := if_pos (busy_of_decodePhase s i hd)
    have hlength : s.live.lengthIsTrue = s.lengthIsTrue := by rw [State.lengthIsTrue, hn]; rfl
    cases hl : s.lengthIsTrue with
    | true =>
      rw [sequencerTurn_of_lengthIsTrue s i hd hl, sequencerTurn_of_lengthIsTrue s.live i hd (hlength.trans hl)]
      exact exec_live hd
    | false =>
      rw [sequencerTurn_of_not_lengthIsTrue s i hd hl,
        sequencerTurn_of_not_lengthIsTrue s.live i hd (hlength.trans hl)]
  all_goals simp [sequencerTurn, hph, he]

/-- With no move of the host to come, two states with the same left step to states with the same left. -/
theorem step_of_live_eq {s u t : State} (hs : s.turns = []) (hl : s.live = u.live) (h : step s = .next t) :
    t.turns = [] ∧ ∃ t', step u = .next t' ∧ t.live = t'.live := by
  have hu : u.turns = [] := (congrArg State.turns hl).symm.trans hs
  have hturn : sequencerTurn s = .next t := by simpa only [step, takeTurn, hs] using h
  have same : mapNext State.live (sequencerTurn u) = .next t.live := by
    rw [← sequencerTurn_live u, ← hl, sequencerTurn_live s, hturn]
    rfl
  refine ⟨?_, ?_⟩
  · rcases sequencerTurn_eq_next s t hturn with ⟨-, rfl⟩ | ⟨i, -, -, he⟩
    · exact hs
    · exact (exec_effect i s t he).turns_eq.trans hs
  · obtain ⟨t', ht', hl'⟩ := mapNext_eq_next.1 same
    exact ⟨t', by simpa only [step, takeTurn, hu] using ht', hl'.symm⟩

/-- A run of `k + 1` steps that completes is a step and then a run of `k`. -/
theorem run_succ_eq_next {k : Nat} {s t : State} :
    run (k + 1) s = .next t ↔ ∃ u, step s = .next u ∧ run k u = .next t := by
  simp only [run, Host.Core.run]
  constructor
  · intro h
    split at h
    · rename_i u hu
      exact ⟨u, hu, h⟩
    · cases h
    · cases h
  · rintro ⟨u, hu, h⟩
    have hu' : Sys2Proof.core.step s = .next u := hu
    rw [hu']
    exact h

theorem run_of_live_eq (k : Nat) {s u t : State} (hs : s.turns = []) (hl : s.live = u.live) (h : run k s = .next t) :
    ∃ t', run k u = .next t' ∧ t.live = t'.live := by
  induction k generalizing s u with
  | zero =>
    obtain rfl := Host.Outcome.next.inj h
    exact ⟨u, rfl, hl⟩
  | succ k ih =>
    obtain ⟨s', hstep, hrun⟩ := run_succ_eq_next.1 h
    obtain ⟨hs', u', hu', hl'⟩ := step_of_live_eq hs hl hstep
    obtain ⟨t', ht', hlive⟩ := ih hs' hl' hrun
    exact ⟨t', run_succ_eq_next.2 ⟨u', hu', ht'⟩, hlive⟩

/-- START in `IDLE` latches the operands of a legal command, or takes the fault (70_reset_and_hazards.md R204). -/
theorem startMove_of_idle {s : State} (hp : s.ph = Phase.idle) (cmd : BitVec 8) (arg len : Word) :
    startMove s cmd arg len = .next (
      let p : State := { s with ports := ⟨cmd, arg, len⟩ }
      if cmd = 2#8 then { p with a := arg, n := len, done := false, ph := Phase.init }
      else if cmd = 1#8 then { p with a := arg, n := len, done := false, ph := Phase.ldw }
      else p.raise .illegalCmd) := by
  simp [startMove_eq, State.start, State.startIllegal, hp]

/-- After such a START two states have the same left, whatever else their registers held. -/
theorem step_start_live {s u t : State} {cmd : BitVec 8} {arg len : Word}
    (hs : s.ph = Phase.idle) (hu : u.ph = Phase.idle) (hfcode : s.fcode = u.fcode)
    (hparams : s.params = u.params) (hdata : s.data = u.data)
    (hst : s.turns = [.host (.start cmd arg len)]) (hut : u.turns = [.host (.start cmd arg len)])
    (h : step s = .next t) : t.turns = [] ∧ ∃ t', step u = .next t' ∧ t.live = t'.live := by
  simp only [step, takeTurn, hst, hostMove, startMove_of_idle (s := { s with turns := [] }) hs] at h
  simp only [step, takeTurn, hut, hostMove, startMove_of_idle (s := { u with turns := [] }) hu]
  obtain rfl := Host.Outcome.next.inj h
  refine ⟨?_, _, rfl, ?_⟩
  · split_ifs <;> rfl
  · split_ifs <;> simp [State.live, State.mixing, State.busy, hfcode, hparams, hdata]

/-- `STATUS` and `DONE` are among what is left, and so is `RES` while `DONE = 1`. -/
theorem shown_of_live_eq {s u : State} (hl : s.live = u.live) :
    u.status = s.status ∧ u.done = s.done ∧ (s.done = true → u.res = s.res) := by
  have hstatus : s.live.status = u.live.status := congrArg State.status hl
  have hdone : s.live.done = u.live.done := congrArg State.done hl
  have hres : (if s.done then s.res else 0) = if u.done then u.res else 0 := congrArg State.res hl
  refine ⟨hstatus.symm, hdone.symm, fun h => ?_⟩
  have hu : u.done = true := hdone.symm.trans h
  rw [if_pos h, if_pos hu] at hres
  exact hres.symm

/-- Settles O56: after START the two states have the same left, every step keeps that, and the ports show no more. -/
theorem commandsLeaveNoTrace : Obligations.CommandsLeaveNoTrace := by
  unfold Obligations.CommandsLeaveNoTrace
  intro s₁ s₂ cmd arg len k t₁ hp₁ hp₂ hf₁ hf₂ hparams hdata ht₁ ht₂ h
  obtain ⟨u₁, hstep, hrun⟩ := run_succ_eq_next.1 h
  obtain ⟨hu₁, u₂, hu₂, hl⟩ := step_start_live hp₁ hp₂ (hf₁.trans hf₂.symm) hparams hdata ht₁ ht₂ hstep
  obtain ⟨t₂, ht₂, hlive⟩ := run_of_live_eq k hu₁ hl hrun
  exact ⟨t₂, run_succ_eq_next.2 ⟨u₂, hu₂, ht₂⟩, shown_of_live_eq hlive⟩

end Sys2Proof.Machine
end

section
/-! DATA as the operations use it (20_memory.md): what a read within bounds answers (R52), that nothing stores (R51), and that
the bytes outside the table's access make no difference (R57). -/

namespace Sys2Proof.Machine

/-- Where every byte is served, a read is the little-endian sum of the bytes (20_memory.md R52). -/
theorem Memory.readLE_eq_sum {m : Memory} {a n : Nat} {b : Nat → Byte}
    (served : ∀ k, k < n → m.read (a + k) = some (b k)) :
    m.readLE a n = .ok (∑ k ∈ Finset.range n, (b k).toNat * 2 ^ (8 * k)) := by
  induction n generalizing a b with
  | zero => rfl
  | succ n ih =>
    have hfirst : m.read a = some (b 0) := served 0 n.succ_pos
    have hrest : m.readLE (a + 1) n = .ok (∑ k ∈ Finset.range n, (b (k + 1)).toNat * 2 ^ (8 * k)) :=
      ih fun k hk => by simpa only [Nat.add_assoc, Nat.add_comm 1] using served (k + 1) (by omega)
    have hshift : ∀ k, (b (k + 1)).toNat * 2 ^ (8 * (k + 1)) = 256 * ((b (k + 1)).toNat * 2 ^ (8 * k)) :=
      fun k => by ring
    simp only [Memory.readLE, hfirst, hrest, Finset.sum_range_succ', hshift, ← Finset.mul_sum, Nat.mul_zero,
      Nat.pow_zero, Nat.mul_one, Nat.add_comm]

/-- The bound is tested before anything is read (20_memory.md R56). -/
theorem State.memRead_outOfBounds {s : State} {a n : Nat} (h : s.n.toNat < a + n) :
    s.memRead a n = .error .outOfBounds :=
  if_pos h

/-- Another memory that serves the same `n` bytes from `a` on gives the same answer, with a value or without. -/
theorem State.memRead_data_congr {s : State} {d : Memory} {a n : Nat}
    (h : ∀ k, k < n → d.read (a + k) = s.data.read (a + k)) :
    State.memRead { s with data := d } a n = s.memRead a n := by
  simp only [State.memRead, Memory.readLE_congr s.data d a n h]

/-- Settles O20: the bound is the read's first test, and the sum is that of `Memory.readLE`, for every width. -/
theorem memReadIsTheLittleEndianSum : Obligations.MemReadIsTheLittleEndianSum := by
  unfold Obligations.MemReadIsTheLittleEndianSum
  intro s a n _
  exact ⟨State.memRead_outOfBounds, fun b hbound served =>
    (s.memRead_eq_ok a n _).2 ⟨hbound, Memory.readLE_eq_sum served⟩⟩

section Frame

variable {i : Instr} {s t : State}

theorem Effect.data_eq (he : Effect i s t) : t.data = s.data := by
  cases he <;> rfl

/-- The ports, the host's record and the free values are no operation's to write. -/
theorem Effect.outside_eq (he : Effect i s t) :
    t.ports = s.ports ∧ t.observed = s.observed ∧ t.freeCount = s.freeCount := by
  cases he <;> exact ⟨rfl, rfl, rfl⟩

end Frame

/-- Settles O39, from the frames of `Effect`: the memory is the same, so every byte reads the same. -/
theorem noOperationStores : Obligations.NoOperationStores := by
  unfold Obligations.NoOperationStores
  intro i s t h
  have he := exec_effect i s t h
  obtain ⟨hports, hobserved, hfree⟩ := he.outside_eq
  exact ⟨fun a => by rw [he.data_eq], he.data_eq, he.params_eq, hports, he.turns_eq, hobserved, hfree⟩

section Spans

variable {s : State}

theorem State.accessSpan_bulk_word (hd : decodePhase s.ph = .ok .bulk) (hexit : ¬ (s.i = 0 ∧ s.l.toNat < 32)) :
    s.accessSpan = (bulkAddress s.off s.i, 8) := by
  simp only [State.accessSpan, hd, if_neg hexit, bulkAddress]

theorem State.accessSpan_oddb_odd (hd : decodePhase s.ph = .ok .oddb) (hodd : s.l.getLsbD 0 = true) :
    s.accessSpan = (s.off.toNat, 1) := by
  rw [getLsbD_zero_eq_odd, decide_eq_true_eq] at hodd
  simp only [State.accessSpan, hd, if_pos hodd]

theorem State.accessSpan_chunk8_word (hd : decodePhase s.ph = .ok .chunk8) (hchunk : 8 ≤ s.l.toNat) :
    s.accessSpan = (s.off.toNat, 8) := by
  simp only [State.accessSpan, hd, if_pos hchunk]

theorem State.accessSpan_tail2_pair (hd : decodePhase s.ph = .ok .tail2) (hpair : 2 ≤ s.l.toNat) :
    s.accessSpan = (s.off.toNat, 2) := by
  simp only [State.accessSpan, hd, if_pos hpair]

theorem State.accessSpan_tail2_single (hd : decodePhase s.ph = .ok .tail2) (hrest : 0 < s.l.toNat)
    (hpair : ¬ 2 ≤ s.l.toNat) : s.accessSpan = (s.off.toNat, 1) := by
  have hsingle : s.l.toNat = 1 := by omega
  simp only [State.accessSpan, hd, if_neg hpair, if_pos hsingle]

theorem State.accessSpan_ldw_word (hd : decodePhase s.ph = .ok .ldw) (hb : ¬ s.n.toNat < s.a.toNat + 8) :
    s.accessSpan = (s.a.toNat, 8) := by
  simp only [State.accessSpan, hd, if_pos (Nat.not_lt.1 hb)]

end Spans

section OtherSequence

variable {s : State} {d : Memory} (agree : ∀ b, b ∈ s.accessed → d.read b = s.data.read b)
include agree

/-- The read of the tabled access sees no other byte. -/
theorem State.memRead_data_of_accessSpan {a n : Nat} (hspan : s.accessSpan = (a, n)) :
    State.memRead { s with data := d } a n = s.memRead a n := by
  refine State.memRead_data_congr fun k hk => agree (a + k) ?_
  rw [State.accessed, hspan]
  exact List.mem_range'_1.2 ⟨Nat.le_add_right a k, Nat.add_lt_add_left hk a⟩

theorem execBulk_data (hd : decodePhase s.ph = .ok .bulk) :
    execBulk { s with data := d } = mapNext (fun t => { t with data := d }) (execBulk s) := by
  by_cases hexit : s.i = 0 ∧ s.l.toNat < 32
  · rw [execBulk_exit hexit]
    exact execBulk_exit (s := { s with data := d }) hexit
  · cases hk : laneOf? s.i with
    | none =>
      rw [execBulk_noLane hexit hk]
      exact execBulk_noLane (s := { s with data := d }) hexit hk
    | some k =>
      have hread := State.memRead_data_of_accessSpan agree (State.accessSpan_bulk_word hd hexit)
      rw [execBulk_word hexit hk, mapNext_withRead, State.memRead8, ← hread]
      exact execBulk_word (s := { s with data := d }) hexit hk

theorem execOddb_data (hd : decodePhase s.ph = .ok .oddb) :
    execOddb { s with data := d } = mapNext (fun t => { t with data := d }) (execOddb s) := by
  by_cases hodd : s.l.getLsbD 0 = true
  · have hread := State.memRead_data_of_accessSpan agree (State.accessSpan_oddb_odd hd hodd)
    rw [execOddb_odd hodd, mapNext_withRead, State.memRead1, ← hread]
    exact execOddb_odd (s := { s with data := d }) hodd
  · rw [execOddb_even hodd]
    exact execOddb_even (s := { s with data := d }) hodd

theorem execChunk8_data (hd : decodePhase s.ph = .ok .chunk8) :
    execChunk8 { s with data := d } = mapNext (fun t => { t with data := d }) (execChunk8 s) := by
  by_cases hchunk : 8 ≤ s.l.toNat
  · cases hk : laneOf? s.i with
    | none =>
      rw [execChunk8_noLane hchunk hk]
      exact execChunk8_noLane (s := { s with data := d }) hchunk hk
    | some k =>
      have hread := State.memRead_data_of_accessSpan agree (State.accessSpan_chunk8_word hd hchunk)
      rw [execChunk8_word hchunk hk, mapNext_withRead, State.memRead8, ← hread]
      exact execChunk8_word (s := { s with data := d }) hchunk hk
  · rw [execChunk8_exit hchunk]
    exact execChunk8_exit (s := { s with data := d }) hchunk

theorem execTail2_data (hd : decodePhase s.ph = .ok .tail2) :
    execTail2 { s with data := d } = mapNext (fun t => { t with data := d }) (execTail2 s) := by
  by_cases hrest : 0 < s.l.toNat
  · cases hk : laneOf? s.i with
    | none =>
      rw [execTail2_noLane hrest hk]
      exact execTail2_noLane (s := { s with data := d }) hrest hk
    | some k =>
      by_cases hpair : 2 ≤ s.l.toNat
      · have hread := State.memRead_data_of_accessSpan agree (State.accessSpan_tail2_pair hd hpair)
        rw [execTail2_pair hpair hk, mapNext_withRead, State.memRead2, ← hread]
        exact execTail2_pair (s := { s with data := d }) hpair hk
      · have hread := State.memRead_data_of_accessSpan agree (State.accessSpan_tail2_single hd hrest hpair)
        rw [execTail2_single hrest hpair hk, mapNext_withRead, State.memRead1, ← hread]
        exact execTail2_single (s := { s with data := d }) hrest hpair hk
  · rw [execTail2_exit hrest]
    exact execTail2_exit (s := { s with data := d }) hrest

theorem execLdw_data (hd : decodePhase s.ph = .ok .ldw) :
    execLdw { s with data := d } = mapNext (fun t => { t with data := d }) (execLdw s) := by
  by_cases hb : s.n.toNat < s.a.toNat + 8
  · rw [execLdw_bounds hb]
    exact execLdw_bounds (s := { s with data := d }) hb
  · have hread := State.memRead_data_of_accessSpan agree (State.accessSpan_ldw_word hd hb)
    rw [execLdw_word hb, mapNext_withRead, State.memRead8, ← hread]
    exact execLdw_word (s := { s with data := d }) hb

end OtherSequence

/-- Settles O45: five operations read, each the table's access in the branch that reads; the others have no branch. -/
theorem readsOnlyTheTabledAccess : Obligations.ReadsOnlyTheTabledAccess := by
  unfold Obligations.ReadsOnlyTheTabledAccess
  intro i s d hd agree
  cases i
  case ldle64 | hash64 => exact absurd (by decide) (not_command_of_decodePhase s.ph _ hd)
  case init | leninj | fin0 | combine | aval | ret => rfl
  case bulk => exact execBulk_data agree hd
  case oddb => exact execOddb_data agree hd
  case chunk8 => exact execChunk8_data agree hd
  case tail2 => exact execTail2_data agree hd
  case ldw => exact execLdw_data agree hd

end Sys2Proof.Machine
end

section
/-! The two formats read whole (30_encoding.md R76, R78): a code decodes exactly to the operation whose code it is. -/

namespace Sys2Proof.Machine

/-- Settles O1: a word that decodes is the encoding of its command, and each command's own word decodes. -/
theorem commandWordsDecode : Obligations.CommandWordsDecode := by
  unfold Obligations.CommandWordsDecode
  intro w i
  constructor
  · intro h
    have hcode : encode i = .cmd w := decodeCmd_eq_ok w i h
    cases i
    case ldle64 => exact .inl ⟨(Code.cmd.inj hcode).symm, rfl⟩
    case hash64 => exact .inr ⟨(Code.cmd.inj hcode).symm, rfl⟩
    all_goals cases hcode
  · rintro (⟨rfl, rfl⟩ | ⟨rfl, rfl⟩)
    · exact decodeCmd_ldle64
    · exact decodeCmd_hash64

/-- A phase code decodes to the operation whose code it is and to no other (30_encoding.md R78). -/
theorem decodePhase_eq_ok_iff (c : BitVec 4) (i : Instr) : decodePhase c = .ok i ↔ encode i = .ph c := by
  refine ⟨decodePhase_eq_ok c i, fun hcode => ?_⟩
  cases i
  case ldle64 | hash64 => cases hcode
  all_goals
    obtain rfl := Code.ph.inj hcode
    rfl

/-- Settles O2: `decodePhase_ok_cases` lists the rows one way; the other way every row holds its operation's own code. -/
theorem phaseCodesDecode : Obligations.PhaseCodesDecode := by
  unfold Obligations.PhaseCodesDecode
  intro c i
  constructor
  · intro h
    rcases decodePhase_ok_cases c i h with ⟨rfl, rfl⟩ | ⟨rfl, rfl⟩ | ⟨rfl, rfl⟩ | ⟨rfl, rfl⟩ | ⟨rfl, rfl⟩ | ⟨rfl, rfl⟩ |
      ⟨rfl, rfl⟩ | ⟨rfl, rfl⟩ | ⟨rfl, rfl⟩ | ⟨rfl, rfl⟩ | ⟨rfl, rfl⟩ <;> decide
  · intro hrow
    have rows : ∀ row ∈ [(1, Instr.init), (2, .bulk), (3, .leninj), (4, .oddb), (5, .fin0), (6, .chunk8), (7, .tail2),
        (8, .combine), (9, .aval), (10, .ret), (11, .ldw)], encode row.2 = .ph (BitVec.ofNat 4 row.1) := by decide
    have hcode : encode i = .ph (BitVec.ofNat 4 c.toNat) := rows (c.toNat, i) hrow
    rw [BitVec.ofNat_toNat, BitVec.setWidth_eq] at hcode
    exact (decodePhase_eq_ok_iff c i).2 hcode

end Sys2Proof.Machine
end

section
/-! Whose turn a step is, one equation per form of the turns (70_reset_and_hazards.md R203), and what it then runs
(30_encoding.md R80). -/

namespace Sys2Proof.Machine

section TurnTaken

variable {s : State} {rest : List Turn}

theorem step_of_turns_nil (ht : s.turns = []) : step s = sequencerTurn s := by
  simp only [step, takeTurn, ht]

theorem step_of_turns_sequencer (ht : s.turns = .sequencer :: rest) :
    step s = sequencerTurn { s with turns := rest } := by
  simp only [step, takeTurn, ht]

theorem step_of_turns_waitIdle_of_busy (ht : s.turns = .waitIdle :: rest) (hb : s.busy = true) :
    step s = sequencerTurn s := by
  simp only [step, takeTurn, ht, hb, if_true]

theorem step_of_turns_host {m : HostMove} (ht : s.turns = .host m :: rest) :
    step s = hostMove m { s with turns := rest } := by
  simp only [step, takeTurn, ht]

/-- Where the sequencer has the turn, the step is its turn, with the turns that are left. -/
theorem step_of_sequencerHasTurn (turn : s.sequencerHasTurn) :
    ∃ rest, step s = sequencerTurn { s with turns := rest } := by
  rcases turn with ht | ht | ⟨ht, hb⟩
  · exact ⟨s.turns, step_of_turns_nil ht⟩
  · obtain ⟨rest, ht⟩ := List.head?_eq_some_iff.1 ht
    exact ⟨rest, step_of_turns_sequencer ht⟩
  · obtain ⟨rest, ht⟩ := List.head?_eq_some_iff.1 ht
    exact ⟨s.turns, step_of_turns_waitIdle_of_busy ht hb⟩

end TurnTaken

/-- START with a word that decodes runs its command on the inputs presented (70_reset_and_hazards.md R204). -/
theorem startMove_of_decodeCmd (s : State) (cmd : BitVec 8) (arg len : Word) (i : Instr) (hd : decodeCmd cmd = .ok i) :
    startMove s cmd arg len = exec i { s with ports := ⟨cmd, arg, len⟩ } := by
  simp only [startMove, hd]

/-- Settles O4: each form of the turns gives the step to the sequencer, whose turn is by the duty `exec` or a refusal. A wait
gives it too, since a phase that decodes is `BUSY`. -/
theorem stepRunsThePhaseOperation : Obligations.StepRunsThePhaseOperation := by
  unfold Obligations.StepRunsThePhaseOperation
  intro s i hd
  refine ⟨fun hl => ⟨fun ht => ?_, fun rest ht => ?_, fun rest ht => ?_⟩, fun hl turn => ?_⟩
  · rw [step_of_turns_nil ht, sequencerTurn_of_lengthIsTrue s i hd hl]
  · rw [step_of_turns_sequencer ht, sequencerTurn_of_lengthIsTrue { s with turns := rest } i hd hl]
  · rw [step_of_turns_waitIdle_of_busy ht (busy_of_decodePhase s i hd), sequencerTurn_of_lengthIsTrue s i hd hl]
  · obtain ⟨rest, hstep⟩ := step_of_sequencerHasTurn turn
    rw [hstep, sequencerTurn_of_not_lengthIsTrue { s with turns := rest } i hd hl]

/-- Settles O5: the next turn is the host's, and its START runs the command. -/
theorem stepRunsTheStartedCommand : Obligations.StepRunsTheStartedCommand := by
  unfold Obligations.StepRunsTheStartedCommand
  intro s rest cmd arg len i ht hd
  calc step s
    _ = startMove { s with turns := rest } cmd arg len := step_of_turns_host ht
    _ = exec i { s with turns := rest, ports := ⟨cmd, arg, len⟩ } := startMove_of_decodeCmd _ cmd arg len i hd

end Sys2Proof.Machine
end

section
/-! START of the two commands in `IDLE` (40_loader.md R101, 43_hash64_sequence.md R140). -/

namespace Sys2Proof.Machine

theorem State.start_of_idle {s : State} (hp : s.ph = Phase.idle) (entry : BitVec 4) :
    s.start entry = { s with a := s.ports.arg, n := s.ports.len, done := false, ph := entry } := by
  simp only [State.start, hp, idle_ne_faulted, ne_eq, not_true_eq_false, if_false]

/-- Settles O9: both commands are START, each with its own first phase. -/
theorem commandsStartInIdle : Obligations.CommandsStartInIdle := by
  unfold Obligations.CommandsStartInIdle
  intro s hp
  exact ⟨congrArg Host.Outcome.next (State.start_of_idle hp Phase.ldw),
    congrArg Host.Outcome.next (State.start_of_idle hp Phase.init)⟩

end Sys2Proof.Machine
end

section
/-! The word loader (40_loader.md): on a connected sequence the 8-byte read is the function of R100, and `LDW` (R102) delivers
it or raises `BOUNDS`. -/

namespace Sys2Proof.Machine

/-- A byte below the bytes after it: the sum of 20_memory.md R52 is the disjunction of R100, since its terms share no bit. -/
theorem ofNat_byte_add (b : Byte) (r : Nat) :
    BitVec.ofNat 64 (b.toNat + 256 * r) = zext64 b ||| (BitVec.ofNat 64 r <<< 8) := by
  have hsum : b.toNat + 256 * r = b.toNat ||| r <<< 8 := by
    rw [Nat.lor_comm, ← Nat.shiftLeft_add_eq_or_of_lt b.isLt, Nat.shiftLeft_eq]
    omega
  have hshift : BitVec.ofNat 64 (r <<< 8) = BitVec.ofNat 64 r <<< 8 :=
    BitVec.eq_of_toNat_eq (by simp [Nat.shiftLeft_eq])
  rw [hsum, BitVec.ofNat_or, BitVec.ofNat_toNat, hshift, zext64]

section Bytes

variable {bytes : List Byte} {a : Nat}

theorem rdBytes_succ (ha : a < bytes.length) (n : Nat) :
    rdBytes bytes a (n + 1) = zext64 bytes[a] ||| (rdBytes bytes (a + 1) n <<< 8) := by
  rw [rdBytes, List.drop_eq_getElem_cons ha, List.take_succ_cons, List.foldr_cons, rdBytes]

/-- On a laid-out sequence a read gives the number `rd8`, `rd2`, `rd1` of 43_hash64_sequence.md R142 give. -/
theorem Memory.readLE_ofBytes {n : Nat} (hn : a + n ≤ bytes.length) :
    ∃ v, (Memory.ofBytes bytes).readLE a n = .ok v ∧ BitVec.ofNat 64 v = rdBytes bytes a n := by
  induction n generalizing a with
  | zero => exact ⟨0, rfl, by simp [rdBytes]⟩
  | succ n ih =>
    have ha : a < bytes.length := by omega
    obtain ⟨r, hread, hvalue⟩ := ih (a := a + 1) (by omega)
    refine ⟨bytes[a].toNat + 256 * r, ?_, ?_⟩
    · simp only [Memory.readLE, Memory.read_ofBytes, List.getElem?_eq_getElem ha, hread]
    · rw [ofNat_byte_add, hvalue, rdBytes_succ ha]

theorem le64_eq_rdBytes (ha : a + 8 ≤ bytes.length) : le64 bytes a = some (rdBytes bytes a 8) := by
  have hlength : 8 ≤ (bytes.drop a).length := by rw [List.length_drop]; omega
  unfold le64 rdBytes
  match bytes.drop a, hlength with
  | b0 :: b1 :: b2 :: b3 :: b4 :: b5 :: b6 :: b7 :: tail, _ =>
    simp [BitVec.shiftLeft_or_distrib, ← BitVec.shiftLeft_add, BitVec.or_assoc]

theorem le64_eq_none (ha : bytes.length < a + 8) : le64 bytes a = none := by
  have hlength : (bytes.drop a).length < 8 := by rw [List.length_drop]; omega
  unfold le64
  split
  · rename_i hdrop
    simp only [hdrop, List.length_cons] at hlength
    omega
  · rfl

theorem le64_eq_some_iff {v : Word} : le64 bytes a = some v ↔ a + 8 ≤ bytes.length ∧ rdBytes bytes a 8 = v := by
  by_cases ha : a + 8 ≤ bytes.length
  · simp [le64_eq_rdBytes ha, ha]
  · simp [le64_eq_none (Nat.not_le.1 ha), ha]

theorem le64_eq_none_iff : le64 bytes a = none ↔ bytes.length < a + 8 := by
  refine ⟨fun hnone => ?_, le64_eq_none⟩
  by_contra ha
  rw [le64_eq_rdBytes (Nat.not_lt.1 ha)] at hnone
  cases hnone

end Bytes

/-- Where the loader has no value `LDW` raises `BOUNDS`, whatever is connected (40_loader.md R102). -/
theorem execLdw_of_le64_none {s : State} {bytes : List Byte} (hlength : s.n.toNat = bytes.length)
    (hnone : le64 bytes s.a.toNat = none) : execLdw s = .next (s.raise .bounds) :=
  execLdw_bounds (hlength ▸ le64_eq_none_iff.1 hnone)

section Connected

variable {s : State} {bytes : List Byte} (hdata : s.data = Memory.ofBytes bytes) (hlength : s.n.toNat = bytes.length)
include hdata hlength

/-- The 8-byte read of a connected sequence with its true length, where it gives a value (40_loader.md R103). -/
theorem State.memRead8_of_le64 {a : Nat} {v : Word} (hv : le64 bytes a = some v) : s.memRead8 a = .ok v := by
  obtain ⟨hbound, rfl⟩ := le64_eq_some_iff.1 hv
  obtain ⟨r, hread, hvalue⟩ := Memory.readLE_ofBytes hbound
  have hok : s.memRead a 8 = .ok r := (s.memRead_eq_ok a 8 r).2 ⟨by omega, by rw [hdata, hread]⟩
  rw [State.memRead8, Config.word, hok, ← hvalue, Except.map]

theorem execLdw_of_le64_some {v : Word} (hv : le64 bytes s.a.toNat = some v) :
    execLdw s = .next { s with res := v, done := true, ph := Phase.idle } := by
  have hbound := (le64_eq_some_iff.1 hv).1
  rw [execLdw_word (by omega), State.memRead8_of_le64 hdata hlength hv, withRead_ok]

/-- `LDW`'s turn is its meaning: the host's duty is kept. -/
theorem step_ldw (hp : s.ph = Phase.ldw) (ht : s.turns = []) : step s = execLdw s := by
  have hdecode : decodePhase s.ph = .ok .ldw := by rw [hp]; rfl
  rw [step_of_turns_nil ht, sequencerTurn_of_lengthIsTrue s .ldw hdecode (s.lengthIsTrue_iff.2 ⟨bytes, hdata, hlength⟩),
    exec_ldw]

end Connected

/-- Settles O24: the bound is `LDW`'s first test, and with the word read nothing else can stop it. -/
theorem ldwLoadsOrRaisesBounds : Obligations.LdwLoadsOrRaisesBounds := by
  unfold Obligations.LdwLoadsOrRaisesBounds
  refine ⟨rfl, fun s => ⟨execLdw_bounds, fun v hbound hv => ?_⟩⟩
  rw [exec_ldw, execLdw_word (Nat.not_lt.2 hbound), hv, withRead_ok]
  rfl

end Sys2Proof.Machine
end

section
/-! `LDLE64` from START to its end (40_loader.md R101). -/

namespace Sys2Proof.Machine

/-- What the START of `LDLE64` leaves in `IDLE` when it was the host's last move (70_reset_and_hazards.md R204);
`step_start_ldle64` is the step that goes there. -/
def State.loadStarted (s : State) (arg len : Word) : State :=
  { s with turns := [], ports := ⟨0x01, arg, len⟩, a := arg, n := len, done := false, ph := Phase.ldw }

theorem step_start_ldle64 {s : State} {arg len : Word} (hp : s.ph = Phase.idle)
    (ht : s.turns = [.host (.start 0x01 arg len)]) : step s = .next (s.loadStarted arg len) := by
  rw [step_of_turns_host ht]
  exact startMove_of_idle (s := { s with turns := [] }) hp 0x01 arg len

/-- `STATUS` after a command that ended with no fault: `DONE` alone (10_state.md R29). -/
theorem State.status_of_done {s : State} (hp : s.ph = Phase.idle) (hd : s.done = true) (hf : s.fcode = 0) :
    s.status = 0x02 := by
  simp only [State.status, State.busy, State.faulted, hp, hd, hf]
  rfl

/-- `STATUS` after `BOUNDS`: `FAULT`, and 2 in `FCODE` (10_state.md R29, 60_exceptions.md R171). -/
theorem State.status_raise_bounds (s : State) : (s.raise .bounds).status = 0x24 := by
  simp only [State.status, State.busy, State.faulted, State.raise_ph, State.raise_done, State.raise_fcode]
  rfl

/-- Settles O52: START goes to `LDW`, whose turn ends the command in one of its two ways, by whether the loader has a value. -/
theorem loadCommandDeliversTheWord : Obligations.LoadCommandDeliversTheWord := by
  unfold Obligations.LoadCommandDeliversTheWord
  intro s bytes arg hp hf hdata hfits ht
  let u := s.loadStarted arg (BitVec.ofNat 64 bytes.length)
  have hlength : u.n.toNat = bytes.length := Nat.mod_eq_of_lt hfits
  have hrun : ∀ t, execLdw u = .next t → run 2 s = .next t := fun t h =>
    run_succ_eq_next.2 ⟨u, step_start_ldle64 hp ht,
      run_succ_eq_next.2 ⟨t, (step_ldw (s := u) hdata hlength rfl rfl).trans h, rfl⟩⟩
  cases hv : le64 bytes arg.toNat with
  | some v =>
    refine ⟨_, hrun _ (execLdw_of_le64_some (s := u) hdata hlength hv), rfl, rfl, rfl, rfl, rfl, ?_, nofun⟩
    rintro _ ⟨⟩
    exact ⟨rfl, rfl, rfl, State.status_of_done rfl rfl hf⟩
  | none =>
    refine ⟨_, hrun _ (execLdw_of_le64_none (s := u) hlength hv), rfl, rfl, rfl, rfl, rfl, nofun, fun _ => ?_⟩
    exact ⟨rfl, rfl, rfl, u.status_raise_bounds, rfl⟩

end Sys2Proof.Machine
end

section
/-! The micro-operations of the mixer (41_mixer.md), each the whole next state it answers in every branch, with the arithmetic
of 30_encoding.md R79 a and of R119 read on natural numbers. -/

namespace Sys2Proof.Machine

/-- The two halves exchanged, as numbers: the shifted halves share no bit, so their disjunction is a sum. -/
theorem halfSwap_toNat (v : Word) :
    (halfSwap v).toNat = v.toNat % 2 ^ 32 * 2 ^ 32 + v.toNat / 2 ^ 32 := by
  have hupper : v.toNat / 2 ^ 32 < 2 ^ 32 := by
    have := v.isLt
    omega
  have hlower : v.toNat * 2 ^ 32 % 2 ^ 64 = v.toNat % 2 ^ 32 * 2 ^ 32 :=
    Nat.mul_mod_mul_right (2 ^ 32) v.toNat (2 ^ 32)
  rw [halfSwap, BitVec.toNat_or, BitVec.toNat_shiftLeft, BitVec.toNat_ushiftRight, Nat.shiftLeft_eq,
    Nat.shiftRight_eq_div_pow, hlower, ← Nat.shiftLeft_eq, ← Nat.shiftLeft_add_eq_or_of_lt hupper]

/-- `mixfin` as a number: both of its operands are the reduced product (41_mixer.md R119). -/
theorem mixfin_toNat (v p : Word) :
    (mixfin v p).toNat = (v.toNat * p.toNat % 2 ^ 64) ^^^ (v.toNat * p.toNat % 2 ^ 64 / 2 ^ 31) := by
  rw [mixfin, BitVec.toNat_xor, BitVec.toNat_ushiftRight, Nat.shiftRight_eq_div_pow, BitVec.toNat_mul]

section AbsorbedLanes

variable (p1 : Word) (h : Lanes) (k : Fin 4) (w : Word)

theorem absorbWord_get_same : (absorbWord p1 h k w).get k = (h.get k ^^^ w) * p1 := by
  have hnext : k ≠ k + 1 := by revert k; decide
  rw [absorbWord_get, if_neg hnext, if_pos rfl]

theorem absorbWord_get_next : (absorbWord p1 h k w).get (k + 1) = h.get (k + 1) ^^^ rotl64 w 40 := by
  rw [absorbWord_get, if_pos rfl]

theorem absorbWord_get_other {j : Fin 4} (hk : j ≠ k) (hnext : j ≠ k + 1) :
    (absorbWord p1 h k w).get j = h.get j := by
  rw [absorbWord_get, if_neg hnext, if_neg hk]

end AbsorbedLanes

section ServedReads

variable {s : State} {k : Fin 4}

/-- The fourth word of a block ends it (41_mixer.md R111). -/
theorem State.absorb_last (hi : s.i = 3) (w : Word) :
    s.absorb k w = { s with
      h := absorbWord s.params.p1 s.h k w, off := s.off + 32, l := s.l - 32, i := 0, ph := Phase.bulk } := by
  simp only [State.absorb, if_pos hi]

theorem State.absorb_not_last (hi : s.i ≠ 3) (w : Word) :
    s.absorb k w = { s with h := absorbWord s.params.p1 s.h k w, i := s.i + 1, ph := Phase.bulk } := by
  simp only [State.absorb, if_neg hi]

theorem execBulk_of_memRead8 {w : Word} (hexit : ¬ (s.i = 0 ∧ s.l.toNat < 32)) (hk : s.i.toNat = k.val)
    (hw : s.memRead8 (bulkAddress s.off s.i) = .ok w) : execBulk s = .next (s.absorb k w) := by
  rw [execBulk_word hexit ((laneOf?_eq_some _ _).2 hk), hw, withRead_ok]

theorem execOddb_of_memRead1 {b : Byte} (hodd : s.l.getLsbD 0 = true) (hb : s.memRead1 s.off.toNat = .ok b) :
    execOddb s = .next { s with
      h := { s.h with h0 := s.h.h0 ^^^ zext64 b }, off := s.off + 1, l := s.l - 1, ph := Phase.fin0 } := by
  rw [execOddb_odd hodd, hb, withRead_ok]

theorem execChunk8_of_memRead8 {w : Word} (hchunk : 8 ≤ s.l.toNat) (hk : s.i.toNat = k.val)
    (hw : s.memRead8 s.off.toNat = .ok w) :
    execChunk8 s = .next { s with
      h := s.h.set k (mixfin (s.h.get k ^^^ w) s.params.p2)
      off := s.off + 8, l := s.l - 8, i := s.i + 1, ph := Phase.chunk8 } := by
  rw [execChunk8_word hchunk ((laneOf?_eq_some _ _).2 hk), hw, withRead_ok]

theorem execTail2_of_memRead2 {v : BitVec 16} (hpair : 2 ≤ s.l.toNat) (hk : s.i.toNat = k.val)
    (hv : s.memRead2 s.off.toNat = .ok v) : execTail2 s = .next (s.foldTail k (zext64 v) 2) := by
  rw [execTail2_pair hpair ((laneOf?_eq_some _ _).2 hk), hv, withRead_ok]

theorem execTail2_of_memRead1 {v : Byte} (hsingle : s.l.toNat = 1) (hk : s.i.toNat = k.val)
    (hv : s.memRead1 s.off.toNat = .ok v) : execTail2 s = .next (s.foldTail k (zext64 v) 1) := by
  rw [execTail2_single (by omega) (by omega) ((laneOf?_eq_some _ _).2 hk), hv, withRead_ok]

end ServedReads

/-- Settles O25: `INIT` has no branch, and its next state is the one stated. -/
theorem initLoadsLanesAndCursor : Obligations.InitLoadsLanesAndCursor := by
  unfold Obligations.InitLoadsLanesAndCursor
  exact ⟨rfl, fun _ => ⟨_, rfl, rfl, rfl, rfl, rfl, rfl⟩⟩

/-- Settles O26: the word step is `State.absorb`, told apart by the fourth word of a block. -/
theorem bulkAbsorbsAWordOrLeaves : Obligations.BulkAbsorbsAWordOrLeaves := by
  unfold Obligations.BulkAbsorbsAWordOrLeaves
  refine ⟨rfl, fun s => ⟨fun hi hl => execBulk_exit ⟨hi, hl⟩, fun k w hk hblock hw => ?_⟩⟩
  have hexit : ¬ (s.i = 0 ∧ s.l.toNat < 32) := fun ⟨hi, hl⟩ => Nat.not_lt.2 (hblock hi) hl
  have hlast : s.i = 3 ↔ k = 3 := by
    rw [← BitVec.toNat_inj, hk]
    exact (Fin.ext_iff (a := k) (b := 3)).symm
  refine ⟨s.absorb k w, execBulk_of_memRead8 hexit hk hw, absorbWord_get_same _ _ k w, absorbWord_get_next _ _ k w,
    fun j hj hj' => absorbWord_get_other _ _ k w hj hj', fun h3 => ?_, fun h3 => ?_⟩
  · exact State.absorb_last (hlast.2 h3) w
  · exact State.absorb_not_last (h3 ∘ hlast.1) w

/-- Settles O27: the sum of words is the sum of the numbers, with `halfSwap` as `halfSwap_toNat` gives it. -/
theorem leninjAddsTheSwappedLength : Obligations.LeninjAddsTheSwappedLength := by
  unfold Obligations.LeninjAddsTheSwappedLength
  refine ⟨rfl, fun s => ⟨_, rfl, ?_, rfl⟩⟩
  change (s.h.h0 + halfSwap s.n).toNat = (s.h.h0.toNat + _) % 2 ^ 64
  rw [BitVec.toNat_add, halfSwap_toNat]

/-- Settles O28: the bit `ODDB` tests is the parity of `l`. -/
theorem oddbFoldsOneByteWhenOdd : Obligations.OddbFoldsOneByteWhenOdd := by
  unfold Obligations.OddbFoldsOneByteWhenOdd
  refine ⟨rfl, fun s => ?_⟩
  have hparity : s.l.getLsbD 0 = true ↔ s.l.toNat % 2 = 1 := by rw [getLsbD_zero_eq_odd, decide_eq_true_eq]
  constructor
  · intro heven
    exact execOddb_even (by rw [hparity, heven]; decide)
  · intro b hodd hb
    exact execOddb_of_memRead1 (hparity.2 hodd) hb

/-- Settles O29: lane 0 is `mixfin` of itself and `P2`, as `mixfin_toNat` gives it. -/
theorem fin0FinalisesLaneZero : Obligations.Fin0FinalisesLaneZero := by
  unfold Obligations.Fin0FinalisesLaneZero
  exact ⟨rfl, fun s => ⟨_, rfl, mixfin_toNat s.h.h0 s.params.p2, rfl⟩⟩

/-- Settles O30, clause by clause from the branches of `CHUNK8`. -/
theorem chunk8AbsorbsAChunkOrLeaves : Obligations.Chunk8AbsorbsAChunkOrLeaves := by
  unfold Obligations.Chunk8AbsorbsAChunkOrLeaves
  refine ⟨rfl, fun s => ⟨fun hl => ?_, fun hl hi => ?_, fun k w hl hk hw => ?_⟩⟩
  · exact execChunk8_exit (Nat.not_le.2 hl)
  · exact execChunk8_noLane hl ((laneOf?_eq_none _).2 hi)
  · exact ⟨_, execChunk8_of_memRead8 hl hk hw, Lanes.get_set _ k _, fun j hj => Lanes.get_set_ne _ k j _ hj, rfl⟩

/-- Settles O31, clause by clause from the branches of `TAIL2`. -/
theorem tail2FoldsOrLeaves : Obligations.Tail2FoldsOrLeaves := by
  unfold Obligations.Tail2FoldsOrLeaves
  refine ⟨rfl, fun s => ⟨fun hl => ?_, fun hl hi => ?_, fun k b hl hk hb => ?_, fun k b hl hk hb => ?_⟩⟩
  · exact execTail2_exit (Nat.not_lt.2 hl.le)
  · exact execTail2_noLane hl ((laneOf?_eq_none _).2 hi)
  · exact ⟨_, execTail2_of_memRead2 hl hk hb, Lanes.get_set _ k _, fun j hj => Lanes.get_set_ne _ k j _ hj, rfl⟩
  · exact ⟨_, execTail2_of_memRead1 hl hk hb, Lanes.get_set _ k _, fun j hj => Lanes.get_set_ne _ k j _ hj, rfl⟩

end Sys2Proof.Machine
end

section
/-! The finalizer (42_finalizer.md): three micro-operations without a branch, each the whole next state it answers, with the
statements of `AVAL` read on natural numbers. -/

namespace Sys2Proof.Machine

/-- A shift-and-xor statement of R131 as a number. -/
theorem xorShiftRight_toNat (x : Word) (s : Nat) : (xorShiftRight x s).toNat = x.toNat ^^^ (x.toNat / 2 ^ s) := by
  rw [xorShiftRight, BitVec.toNat_xor, BitVec.toNat_ushiftRight, Nat.shiftRight_eq_div_pow]

/-- Settles O33: `combineLanes` is the fold R130 writes out, each multiplier being `combineMultiplier` of the other lane. -/
theorem combineFoldsLanesAndSeed : Obligations.CombineFoldsLanesAndSeed := by
  unfold Obligations.CombineFoldsLanesAndSeed
  exact ⟨rfl, fun s => exec_combine s⟩

/-- Settles O34: the intermediate numbers are those of the words after each statement, and the last word is below `2^64`. -/
theorem avalMixesX : Obligations.AvalMixesX := by
  unfold Obligations.AvalMixesX
  refine ⟨rfl, fun s => ?_⟩
  let x1 := xorShiftRight s.x Config.avS1
  let x2 := x1 * Config.m1
  let x3 := xorShiftRight x2 Config.avS2
  let x4 := x3 * Config.m2
  have hlast : (avalanche s.x).toNat = x4.toNat ^^^ (x4.toNat / 2 ^ 27) := xorShiftRight_toNat x4 Config.avS3
  refine ⟨x1.toNat, x2.toNat, x3.toNat, x4.toNat, xorShiftRight_toNat s.x _, BitVec.toNat_mul x1 _,
    xorShiftRight_toNat x2 _, BitVec.toNat_mul x3 _, ?_, ?_⟩
  · rw [← hlast, BitVec.ofNat_toNat, BitVec.setWidth_eq]
    exact exec_aval s
  · exact hlast ▸ (avalanche s.x).isLt

/-- Settles O35: `RET` has no branch, and its next state is the one stated. -/
theorem retDeliversTheDigest : Obligations.RetDeliversTheDigest := by
  unfold Obligations.RetDeliversTheDigest
  exact ⟨rfl, fun s => exec_ret s⟩

end Sys2Proof.Machine
end

section
/-! The sequencer's turn in a phase that is no operation's: at rest in `IDLE` and `FAULTED` (43_hash64_sequence.md R141), stuck
at a reserved code (30_encoding.md R81). -/

namespace Sys2Proof.Machine

/-- At rest the sequencer's turn changes nothing (log 5). -/
theorem sequencerTurn_of_resting {s : State} (hp : s.ph = Phase.idle ∨ s.ph = Phase.faulted) :
    sequencerTurn s = .next s := by
  rcases hp with hp | hp
  · have hd : decodePhase s.ph = .error .idlePhase := hp ▸ rfl
    simp only [sequencerTurn, hd]
  · have hd : decodePhase s.ph = .error .faultedPhase := hp ▸ rfl
    simp only [sequencerTurn, hd]

/-- A reserved phase code is stuck (log 11). -/
theorem sequencerTurn_of_reserved {s : State} (hp : s.ph = 12 ∨ s.ph = 13 ∨ s.ph = 14) :
    sequencerTurn s = .fault .reservedPhase := by
  have hd : decodePhase s.ph = .error .reservedPhase := by
    rcases hp with hp | hp | hp <;> exact hp ▸ rfl
  simp only [sequencerTurn, hd]

/-- Settles O6: with no turns listed and with its own turn listed the step is the sequencer's turn, here at rest or stuck. -/
theorem sequencerWithoutStep : Obligations.SequencerWithoutStep := by
  unfold Obligations.SequencerWithoutStep
  intro s
  refine ⟨fun ht => ?_, fun rest ht => ?_⟩
  · rw [step_of_turns_nil ht]
    exact ⟨sequencerTurn_of_resting, sequencerTurn_of_reserved⟩
  · rw [step_of_turns_sequencer ht]
    exact ⟨sequencerTurn_of_resting (s := { s with turns := rest }),
      sequencerTurn_of_reserved (s := { s with turns := rest })⟩

end Sys2Proof.Machine
end

section
/-! The phase after every move: the rows of 43_hash64_sequence.md R141 by operation, and the moves of the host
(70_reset_and_hazards.md R203, R204). -/

namespace Sys2Proof.Machine

/-- The phase operation `i` leaves behind: the rows of R141 for the micro-operations, and for a command its first phase from
`IDLE`, from any other phase `FAULTED` (70_reset_and_hazards.md R204). -/
def phaseAfter (i : Instr) (s : State) : BitVec 4 :=
  match i with
  | .ldle64 => if s.ph = Phase.idle then Phase.ldw else Phase.faulted
  | .hash64 => if s.ph = Phase.idle then Phase.init else Phase.faulted
  | .init => Phase.bulk
  | .bulk => if s.i = 0 ∧ s.l.toNat < 32 then Phase.leninj else Phase.bulk
  | .leninj => Phase.oddb
  | .oddb => Phase.fin0
  | .fin0 => Phase.chunk8
  | .chunk8 => if 8 ≤ s.l.toNat then (if s.i.toNat ≤ 3 then Phase.chunk8 else Phase.faulted) else Phase.tail2
  | .tail2 => if 0 < s.l.toNat then (if s.i.toNat ≤ 3 then Phase.tail2 else Phase.faulted) else Phase.combine
  | .combine => Phase.aval
  | .aval => Phase.ret
  | .ret => Phase.idle
  | .ldw => if s.a.toNat + 8 ≤ s.n.toNat then Phase.idle else Phase.faulted

theorem State.ph_ne_idle_of_busy {s : State} (hb : s.busy = true) : s.ph ≠ Phase.idle := by
  rw [s.busy_eq_decide] at hb
  exact (of_decide_eq_true hb).1

theorem State.startIllegal_ph (s : State) : s.startIllegal.ph = Phase.faulted := by
  rcases s.startIllegal_cases with ⟨hp, e⟩ | ⟨-, e⟩ | ⟨-, e⟩ <;> rw [e]
  · exact hp
  · rfl
  · rfl

theorem Effect.ph_eq {i : Instr} {s t : State} (he : Effect i s t) : t.ph = phaseAfter i s := by
  cases he
  case ldle64Ignored hp | hash64Ignored hp => simp [phaseAfter, hp]
  case ldle64Protocol hb | hash64Protocol hb => exact (if_neg (State.ph_ne_idle_of_busy hb)).symm
  case ldle64Latched hp | hash64Latched hp => exact (if_pos hp).symm
  case bulkExit hi hl => exact (if_pos ⟨hi, hl⟩).symm
  case bulkWord hc _ _ => exact (if_neg hc).symm
  case chunk8Exit hl => exact (if_neg (Nat.not_le.2 hl)).symm
  case tail2Exit hl => exact (if_neg hl.not_gt).symm
  case chunk8LaneIndex hl hi | tail2LaneIndex hl hi => simp [phaseAfter, hl, hi]
  case chunk8Word k _ hl hk _ | tail2Pair k _ hl hk _ | tail2Single k _ hl hk _ =>
    have hi : s.i.toNat ≤ 3 := by omega
    have hrest : 0 < s.l.toNat := by omega
    simp [phaseAfter, hl, hi, hrest]
  case ldwBounds hb => exact (if_neg (Nat.not_le.2 hb)).symm
  case ldwWord hb _ => exact (if_pos hb).symm
  all_goals rfl

/-- START enters the first phase of its command from `IDLE`; every other START ends in `FAULTED`
(70_reset_and_hazards.md R204). -/
theorem startMove_ph {s t : State} {cmd : BitVec 8} {arg len : Word} (h : startMove s cmd arg len = .next t) :
    t.ph = if s.ph = Phase.idle then
      (if cmd = 2#8 then Phase.init else if cmd = 1#8 then Phase.ldw else Phase.faulted) else Phase.faulted := by
  by_cases h2 : cmd = 2#8
  · subst h2
    rw [startMove_of_decodeCmd s _ arg len _ decodeCmd_hash64] at h
    exact (exec_effect _ _ t h).ph_eq
  · by_cases h1 : cmd = 1#8
    · subst h1
      rw [startMove_of_decodeCmd s _ arg len _ decodeCmd_ldle64] at h
      exact (exec_effect _ _ t h).ph_eq
    · rw [startMove_eq] at h
      simp only [h1, h2, if_false, Host.Outcome.next.injEq] at h
      simp only [h1, h2, if_false, ite_self, ← h, State.startIllegal_ph]

/-- A move of the host other than START and reset leaves the phase. -/
theorem hostMove_ph {m : HostMove} {s t : State} (h : hostMove m s = .next t)
    (hstart : ∀ cmd arg len, m ≠ .start cmd arg len) (hreset : m ≠ .reset) : t.ph = s.ph := by
  cases m with
  | start cmd arg len => exact absurd rfl (hstart cmd arg len)
  | reset => exact absurd rfl hreset
  | readStatus => cases h; rfl
  | readRes =>
    cases h
    unfold readRes
    split <;> rfl
  | setData bytes =>
    simp only [hostMove, setDataMove] at h
    split at h
    · cases h
    · split at h
      · cases h; rfl
      · cases h

section Moves

variable {s t : State}

theorem step_of_turns_waitIdle_of_not_busy {rest : List Turn} (ht : s.turns = .waitIdle :: rest)
    (hb : s.busy = false) : step s = .next { s with turns := rest } := by
  simp only [step, takeTurn, ht, hb, Bool.false_eq_true, if_false]

/-- A step with a host's move next is that move, with the turns that are left. -/
theorem hostMove_of_head? {m : HostMove} (h : step s = .next t) (hm : s.turns.head? = some (.host m)) :
    ∃ rest, hostMove m { s with turns := rest } = .next t := by
  obtain ⟨rest, ht⟩ := List.head?_eq_some_iff.1 hm
  exact ⟨rest, step_of_turns_host ht ▸ h⟩

/-- The sequencer at rest leaves the phase. -/
theorem StepEffect.ph_of_resting (he : StepEffect s t) (turn : s.sequencerHasTurn)
    (hp : s.ph = Phase.idle ∨ s.ph = Phase.faulted) : t.ph = s.ph := by
  rcases he.of_sequencerHasTurn turn with ⟨-, rest, rfl⟩ | ⟨rest, i, hd, -⟩
  · rfl
  · rcases hp with hp | hp <;> rw [hp] at hd <;> cases hd

/-- The sequencer at an operation's phase goes to the phase the operation leaves behind. -/
theorem StepEffect.ph_of_operation (he : StepEffect s t) (turn : s.sequencerHasTurn) {i : Instr}
    (hd : decodePhase s.ph = .ok i) : t.ph = phaseAfter i s := by
  rcases he.of_sequencerHasTurn turn with ⟨hp, -⟩ | ⟨rest, j, hd', -, hj⟩
  · rcases hp with hp | hp <;> rw [hp] at hd <;> cases hd
  · obtain rfl : i = j := Except.ok.inj (hd.symm.trans hd')
    exact hj.ph_eq

end Moves

/-- Settles O42: the table row by row from the operation each phase holds, then the moves of the host and the end of a wait. -/
theorem successorOfEveryPhase : Obligations.SuccessorOfEveryPhase := by
  unfold Obligations.SuccessorOfEveryPhase
  intro s t h
  refine ⟨fun turn => ?_, fun cmd arg len hm => ?_, fun hm => ?_, fun m hm hstart hreset => ?_, fun hw hb => ?_⟩
  · have he := step_effect s t h
    have row : ∀ (i : Instr) {c : BitVec 4}, decodePhase c = .ok i → s.ph = c → t.ph = phaseAfter i s :=
      fun i c hd hp => he.ph_of_operation turn (hp ▸ hd)
    exact ⟨fun hp => (he.ph_of_resting turn (.inl hp)).trans hp, row .init rfl, row .bulk rfl, row .leninj rfl,
      row .oddb rfl, row .fin0 rfl, row .chunk8 rfl, row .tail2 rfl, row .combine rfl, row .aval rfl, row .ret rfl,
      row .ldw rfl, fun hp => (he.ph_of_resting turn (.inr hp)).trans hp⟩
  · obtain ⟨rest, h⟩ := hostMove_of_head? h hm
    have hph := startMove_ph h
    exact ⟨fun hp => hph.trans (if_pos hp), fun hp => hph.trans (if_neg hp)⟩
  · obtain ⟨rest, h⟩ := hostMove_of_head? h hm
    cases h
    rfl
  · obtain ⟨rest, h⟩ := hostMove_of_head? h hm
    exact hostMove_ph (s := { s with turns := rest }) h hstart hreset
  · obtain ⟨rest, ht⟩ := List.head?_eq_some_iff.1 hw
    rw [step_of_turns_waitIdle_of_not_busy ht hb] at h
    cases h
    rfl

end Sys2Proof.Machine
end

section
/-! START outside `IDLE`, and in `IDLE` with a word that is no command (60_exceptions.md R173, R175, R180). -/

namespace Sys2Proof.Machine

section Start

variable {s : State}

theorem State.start_of_busy (hidle : s.ph ≠ Phase.idle) (hfaulted : s.ph ≠ Phase.faulted) (entry : BitVec 4) :
    s.start entry = s.raise .protocol := by
  rw [State.start, if_neg hfaulted, if_pos hidle]

theorem State.start_of_faulted (hp : s.ph = Phase.faulted) (entry : BitVec 4) : s.start entry = s :=
  if_pos hp

theorem State.startIllegal_of_idle (hp : s.ph = Phase.idle) : s.startIllegal = s.raise .illegalCmd := by
  simp only [State.startIllegal, hp, idle_ne_faulted, ne_eq, not_true_eq_false, if_false]

end Start

/-- A command is START with its own first phase. -/
theorem exec_eq_start_of_command (s : State) {i : Instr} (hi : i = .ldle64 ∨ i = .hash64) :
    ∃ entry, exec i s = .next (s.start entry) := by
  rcases hi with rfl | rfl
  · exact ⟨Phase.ldw, rfl⟩
  · exact ⟨Phase.init, rfl⟩

/-- START with a word that is no command (70_reset_and_hazards.md R204). -/
theorem startMove_of_illegal (s : State) {cmd : BitVec 8} (arg len : Word) (h1 : cmd ≠ 1#8) (h2 : cmd ≠ 2#8) :
    startMove s cmd arg len = .next (State.startIllegal { s with ports := ⟨cmd, arg, len⟩ }) := by
  simp only [startMove_eq, if_neg h1, if_neg h2]

/-- Settles O10: outside `IDLE` START does not depend on the command's first phase. -/
theorem commandsOutsideIdle : Obligations.CommandsOutsideIdle := by
  unfold Obligations.CommandsOutsideIdle
  intro s i hi
  obtain ⟨entry, hexec⟩ := exec_eq_start_of_command s hi
  refine ⟨fun hidle hfaulted => ?_, fun hp => ?_⟩
  · rw [hexec, State.start_of_busy hidle hfaulted]
    rfl
  · rw [hexec, State.start_of_faulted hp]

/-- Settles O11: the step is the fault entry `ILLEGAL_CMD`, which leaves the latches. -/
theorem illegalCommandLatchesNothing : Obligations.IllegalCommandLatchesNothing := by
  unfold Obligations.IllegalCommandLatchesNothing
  intro s rest cmd arg len ht hp h1 h2
  let p : State := { s with turns := rest, ports := ⟨cmd, arg, len⟩ }
  have hstep : step s = .next (p.raise .illegalCmd) :=
    calc step s
      _ = startMove { s with turns := rest } cmd arg len := step_of_turns_host ht
      _ = .next p.startIllegal := startMove_of_illegal _ arg len h1 h2
      _ = .next (p.raise .illegalCmd) := congrArg Host.Outcome.next (State.startIllegal_of_idle hp)
  exact ⟨_, hstep, rfl, rfl, rfl, rfl, rfl, rfl, rfl, rfl, rfl, rfl, rfl⟩

end Sys2Proof.Machine
end

section
/-! Where the mixer stops (60_exceptions.md R172, 41_mixer.md R118): a read that would end above `N`, and a bulk lane above 3. -/

namespace Sys2Proof.Machine

/-- A meaning that goes on with a read out of bounds is stuck, whatever the width of the value (log 9). -/
theorem withRead_memRead_outOfBounds {α : Type} {s : State} {a n : Nat} (h : s.n.toNat < a + n) (value : Nat → α)
    (k : α → Host.Outcome State Fault Refusal) :
    withRead ((s.memRead a n).map value) k = .fault .readOutOfBounds := by
  rw [State.memRead_outOfBounds h]
  rfl

theorem exists_laneOf?_eq_some {i : BitVec 3} (hi : i.toNat ≤ 3) : ∃ k, laneOf? i = some k :=
  ⟨⟨i.toNat, Nat.lt_succ_of_le hi⟩, (laneOf?_eq_some _ _).2 rfl⟩

/-- Settles O32: in each branch that reads, the lane is there and the read is the one out of bounds. -/
theorem mixerNeverAnswersOutOfBounds : Obligations.MixerNeverAnswersOutOfBounds := by
  unfold Obligations.MixerNeverAnswersOutOfBounds
  intro s
  refine ⟨fun hexit hi => ?_, fun hexit hi hb => ?_, fun hodd hb => ?_, fun hl hi hb => ?_, fun hl hi hb => ?_,
    fun hl hi hb => ?_⟩
  · exact execBulk_noLane hexit ((laneOf?_eq_none _).2 hi)
  · obtain ⟨k, hk⟩ := exists_laneOf?_eq_some hi
    exact (execBulk_word hexit hk).trans (withRead_memRead_outOfBounds hb _ _)
  · have hbit : s.l.getLsbD 0 = true := by rw [getLsbD_zero_eq_odd, hodd, decide_eq_true rfl]
    exact (execOddb_odd hbit).trans (withRead_memRead_outOfBounds hb _ _)
  · obtain ⟨k, hk⟩ := exists_laneOf?_eq_some hi
    exact (execChunk8_word hl hk).trans (withRead_memRead_outOfBounds hb _ _)
  · obtain ⟨k, hk⟩ := exists_laneOf?_eq_some hi
    exact (execTail2_pair hl hk).trans (withRead_memRead_outOfBounds hb _ _)
  · obtain ⟨k, hk⟩ := exists_laneOf?_eq_some hi
    exact (execTail2_single (by omega) (by omega) hk).trans (withRead_memRead_outOfBounds hb _ _)

end Sys2Proof.Machine
end

section
/-! Entering and leaving `FAULTED` (60_exceptions.md R171, R178, R180): what raises each fault, that the entry is `State.raise`,
and what a step in `FAULTED` leaves. -/

namespace Sys2Proof.Machine

/-- The condition under which a step raises fault `c` (60_exceptions.md R171): a START for `ILLEGAL_CMD` and `PROTOCOL`, `LDW`
for `BOUNDS`, `CHUNK8` or `TAIL2` for `LANE_INDEX`. `StepEffect.enters_fault` says that no step raises it otherwise. -/
def State.Raises (s : State) (c : FaultCode) : Prop :=
  match c with
  | .illegalCmd => ∃ cmd arg len rest, s.turns = .host (.start cmd arg len) :: rest ∧
      s.ph = Phase.idle ∧ cmd ≠ 1#8 ∧ cmd ≠ 2#8
  | .protocol => ∃ cmd arg len rest, s.turns = .host (.start cmd arg len) :: rest ∧ s.ph ≠ Phase.idle
  | .bounds => s.sequencerHasTurn ∧ s.ph = Phase.ldw ∧ s.n.toNat < s.a.toNat + 8
  | .laneIndex => s.sequencerHasTurn ∧ 3 < s.i.toNat ∧
      ((s.ph = Phase.chunk8 ∧ 8 ≤ s.l.toNat) ∨ (s.ph = Phase.tail2 ∧ 0 < s.l.toNat))

section FaultEntry

variable {s t : State}

/-- A micro-operation, with the turns `rest` to come, comes to `FAULTED` only where `LDW`, `CHUNK8` or `TAIL2` raises. -/
theorem Effect.enters_fault {rest : List Turn} {i : Instr} (he : Effect i { s with turns := rest } t)
    (turn : s.sequencerHasTurn) (hd : decodePhase s.ph = .ok i) (ht : t.ph = Phase.faulted) :
    ∃ c, t = State.raise { s with turns := rest } c ∧ s.Raises c := by
  have hcode := decodePhase_eq_ok s.ph i hd
  cases he
  case chunk8LaneIndex hl hi => exact ⟨.laneIndex, rfl, turn, hi, .inl ⟨(Code.ph.inj hcode).symm, hl⟩⟩
  case tail2LaneIndex hl hi => exact ⟨.laneIndex, rfl, turn, hi, .inr ⟨(Code.ph.inj hcode).symm, hl⟩⟩
  case ldwBounds hb => exact ⟨.bounds, rfl, turn, (Code.ph.inj hcode).symm, hb⟩
  case ldle64Ignored | ldle64Protocol | hash64Ignored | hash64Protocol => cases hcode
  all_goals exact absurd ht (by simp)

/-- A step that comes to `FAULTED` is a fault entry of the state with its turns and ports moved on (60_exceptions.md R178). -/
theorem StepEffect.enters_fault (he : StepEffect s t) (hs : s.ph ≠ Phase.faulted) (ht : t.ph = Phase.faulted) :
    ∃ rest ports c, t = State.raise { s with turns := rest, ports := ports } c ∧ s.Raises c := by
  cases he
  case operation rest i turn hd _ he =>
    obtain ⟨c, hraise, cause⟩ := he.enters_fault turn hd ht
    exact ⟨rest, s.ports, c, hraise, cause⟩
  case startProtocol rest cmd arg len hturns hb =>
    exact ⟨rest, _, .protocol, rfl, cmd, arg, len, rest, hturns, State.ph_ne_idle_of_busy hb⟩
  case startIllegal rest cmd arg len hturns hp h1 h2 =>
    exact ⟨rest, _, .illegalCmd, rfl, cmd, arg, len, rest, hturns, hp, h1, h2⟩
  case startLatched hc =>
    rcases hc with ⟨-, rfl⟩ | ⟨-, rfl⟩ <;> exact absurd ht (by simp)
  case reset => exact absurd ht (by simp)
  all_goals exact absurd ht hs

/-- In `FAULTED` a step other than reset changes no register (60_exceptions.md R180): the operations, and the STARTs that write,
have another phase. -/
theorem StepEffect.registers_of_faulted (he : StepEffect s t) (hp : s.ph = Phase.faulted)
    (hm : s.turns.head? ≠ some (.host .reset)) :
    t.ph = s.ph ∧ t.fcode = s.fcode ∧ t.done = s.done ∧ t.h = s.h ∧ t.a = s.a ∧ t.n = s.n ∧ t.l = s.l ∧
      t.off = s.off ∧ t.i = s.i ∧ t.x = s.x ∧ t.res = s.res := by
  cases he
  case operation hd _ _ =>
    rw [hp] at hd
    cases hd
  case startProtocol hb => simp [State.busy, hp] at hb
  case startIllegal hidle _ _ | startLatched hidle _ => exact absurd (hidle.symm.trans hp) idle_ne_faulted
  case reset ht => exact absurd (by rw [ht]; rfl) hm
  all_goals exact ⟨rfl, rfl, rfl, rfl, rfl, rfl, rfl, rfl, rfl, rfl, rfl⟩

end FaultEntry

/-- Settles O12: the step is `State.raise`, whose frame is the claim's, and its fault's condition is the claim's cause. -/
theorem faultEntryWritesThreeRegisters : Obligations.FaultEntryWritesThreeRegisters := by
  unfold Obligations.FaultEntryWritesThreeRegisters
  intro s t h hs ht
  obtain ⟨rest, ports, c, rfl, cause⟩ := (step_effect s t h).enters_fault hs ht
  refine ⟨rfl, rfl, rfl, rfl, rfl, rfl, rfl, rfl, rfl, rfl, rfl, rfl, rfl, ?_⟩
  cases c with
  | illegalCmd =>
    obtain ⟨cmd, arg, len, rest', hturns, hp, h1, h2⟩ := cause
    exact .inl ⟨cmd, arg, len, rest', hturns, .inl ⟨hp, rfl, h1, h2⟩⟩
  | protocol =>
    obtain ⟨cmd, arg, len, rest', hturns, hp⟩ := cause
    exact .inl ⟨cmd, arg, len, rest', hturns, .inr ⟨hp, rfl⟩⟩
  | bounds =>
    obtain ⟨turn, hp, hb⟩ := cause
    exact .inr (.inl ⟨turn, hp, rfl, hb⟩)
  | laneIndex =>
    obtain ⟨turn, hi, hp⟩ := cause
    exact .inr (.inr ⟨turn, rfl, hi, hp⟩)

/-- Settles O13: no other step writes a register in `FAULTED`, and the reset event writes `PH` and `FCODE`. -/
theorem onlyResetLeavesFaulted : Obligations.OnlyResetLeavesFaulted := by
  unfold Obligations.OnlyResetLeavesFaulted
  intro s hp
  refine ⟨fun t h hm => ?_, fun rest ht => ?_⟩
  · obtain ⟨hph, kept⟩ := (step_effect s t h).registers_of_faulted hp hm
    exact ⟨hph.trans hp, kept⟩
  · exact ⟨_, step_of_turns_host ht, State.resetEvent_ph _, State.resetEvent_fcode _⟩

end Sys2Proof.Machine
end

section
/-! The outside world over every step (70_reset_and_hazards.md R203): the turns are taken in order, and DATA, the ports, the
host's record and the free values change in their own moves alone. The wait of R202 is one of the turns. -/

namespace Sys2Proof.Machine

theorem State.busy_eq_true_iff (s : State) : s.busy = true ↔ s.ph ≠ 0 ∧ s.ph ≠ 15 := by
  rw [s.busy_eq_decide, decide_eq_true_iff]

theorem State.busy_eq_false_iff (s : State) : s.busy = false ↔ s.ph = 0 ∨ s.ph = 15 := by
  rw [s.busy_eq_decide, decide_eq_false_iff_not, ← not_or, not_not]

section OutsideWorld

variable {s t : State}

theorem sequencerTurn_turns (h : sequencerTurn s = .next t) : t.turns = s.turns := by
  rcases sequencerTurn_eq_next s t h with ⟨-, rfl⟩ | ⟨i, -, -, he⟩
  · rfl
  · exact (exec_effect i s t he).turns_eq

/-- A step that is not the sequencer's uses up its turn. -/
theorem StepEffect.turns_of_not_sequencerHasTurn (he : StepEffect s t) (turn : ¬ s.sequencerHasTurn) :
    t.turns = s.turns.tail := by
  cases he
  case resting h _ | operation h _ _ _ => exact absurd h turn
  case waitEnds ht _ | startIgnored ht _ | startProtocol ht _ | startIllegal ht _ _ _ | startLatched ht _ _ |
      readStatus ht | readRes ht _ | readResFree ht _ | reset ht | setData ht _ _ => rw [ht]; rfl

/-- The turn at the head is used up, but for a wait that goes on (log 5, 15). -/
theorem step_turns (h : step s = .next t) :
    t.turns = if s.turns.head? = some .waitIdle ∧ s.busy = true then s.turns else s.turns.tail := by
  by_cases turn : s.sequencerHasTurn
  · rcases turn with ht | ht | hwait
    · rw [step_of_turns_nil ht] at h
      rw [sequencerTurn_turns h, ht]
      rfl
    · obtain ⟨rest, ht⟩ := List.head?_eq_some_iff.1 ht
      rw [step_of_turns_sequencer ht] at h
      rw [sequencerTurn_turns h, ht]
      rfl
    · obtain ⟨rest, ht⟩ := List.head?_eq_some_iff.1 hwait.1
      rw [step_of_turns_waitIdle_of_busy ht hwait.2] at h
      rw [if_pos hwait]
      exact sequencerTurn_turns h
  · rw [if_neg fun hwait => turn (.inr (.inr hwait))]
    exact (step_effect s t h).turns_of_not_sequencerHasTurn turn

theorem StepEffect.data_eq (he : StepEffect s t)
    (hm : ∀ bytes, s.turns.head? ≠ some (.host (.setData bytes))) : t.data = s.data := by
  cases he
  case operation he => exact he.data_eq
  case setData bytes ht _ _ => exact absurd (by rw [ht]; rfl) (hm bytes)
  all_goals rfl

theorem StepEffect.ports_eq (he : StepEffect s t)
    (hm : ∀ cmd arg len, s.turns.head? ≠ some (.host (.start cmd arg len))) : t.ports = s.ports := by
  cases he
  case operation he => exact he.outside_eq.1
  case startIgnored cmd arg len ht _ | startProtocol cmd arg len ht _ | startIllegal cmd arg len ht _ _ _ |
      startLatched cmd arg len _ ht _ _ => exact absurd (by rw [ht]; rfl) (hm cmd arg len)
  all_goals rfl

theorem StepEffect.observed_eq (he : StepEffect s t) (hstatus : s.turns.head? ≠ some (.host .readStatus))
    (hres : s.turns.head? ≠ some (.host .readRes)) : t.observed = s.observed := by
  cases he
  case operation he => exact he.outside_eq.2.1
  case readStatus ht => exact absurd (by rw [ht]; rfl) hstatus
  case readRes ht _ | readResFree ht _ => exact absurd (by rw [ht]; rfl) hres
  all_goals rfl

theorem StepEffect.freeCount_eq (he : StepEffect s t) (hreset : s.turns.head? ≠ some (.host .reset))
    (hres : s.turns.head? ≠ some (.host .readRes)) : t.freeCount = s.freeCount := by
  cases he
  case operation he => exact he.outside_eq.2.2
  case reset ht => exact absurd (by rw [ht]; rfl) hreset
  case readResFree ht _ => exact absurd (by rw [ht]; rfl) hres
  all_goals rfl

end OutsideWorld

/-- Settles O43: the turns from whose turn the step is, each other part as a frame of the step's effects. -/
theorem outsideWorldChangesInItsOwnMove : Obligations.OutsideWorldChangesInItsOwnMove := by
  unfold Obligations.OutsideWorldChangesInItsOwnMove
  intro s t h
  have he := step_effect s t h
  exact ⟨step_turns h, he.data_eq, he.ports_eq, he.observed_eq, he.freeCount_eq⟩

/-- Settles O7: at rest the wait is used up, and while `BUSY` a step keeps the turns. -/
theorem waitEndsWhenNotBusy : Obligations.WaitEndsWhenNotBusy := by
  unfold Obligations.WaitEndsWhenNotBusy
  intro s rest ht
  refine ⟨fun hp => step_of_turns_waitIdle_of_not_busy ht (s.busy_eq_false_iff.2 hp), fun t h hidle hfaulted => ?_⟩
  have hwait : s.turns.head? = some .waitIdle ∧ s.busy = true :=
    ⟨by rw [ht]; rfl, s.busy_eq_true_iff.2 ⟨hidle, hfaulted⟩⟩
  rw [step_turns h, if_pos hwait, ht]

end Sys2Proof.Machine
end

section
/-! A command whose LEN is not the true length of the sequence (70_reset_and_hazards.md R206 a; log 21). -/

namespace Sys2Proof.Machine

/-- A named phase of a `BUSY` block holds an operation (10_state.md R27, R29). -/
theorem decodePhase_of_busy {s : State} (hb : s.busy = true) (hp : s.phaseOk) : ∃ i, decodePhase s.ph = .ok i := by
  obtain ⟨hidle, hfaulted⟩ := s.busy_eq_true_iff.1 hb
  rcases decodePhase_cases s.ph with ⟨i, hd, -⟩ | ⟨h, -⟩ | ⟨h, -⟩ | ⟨h, -⟩
  · exact ⟨i, hd⟩
  · exact absurd h hidle
  · exact absurd h hfaulted
  · rcases h with h | h | h <;> simp [State.phaseOk, h] at hp

/-- While `BUSY` with the duty broken a step other than reset is a read of the host's or the fault entry of another START: the
sequencer runs nothing, and DATA cannot be changed to mend the duty. -/
theorem StepEffect.of_wrong_length {s t : State} (he : StepEffect s t) (hb : s.busy = true)
    (hl : s.lengthIsTrue = false) (hm : s.turns.head? ≠ some (.host .reset)) :
    t.res = s.res ∧
      ((t.ph = s.ph ∧ t.lengthIsTrue = false ∧ t.done = s.done) ∨ (t.ph = 15 ∧ t.fcode = 4 ∧ t.done = false)) := by
  obtain ⟨hidle, hfaulted⟩ := s.busy_eq_true_iff.1 hb
  cases he
  case readStatus | readRes | readResFree => exact ⟨rfl, .inl ⟨rfl, hl, rfl⟩⟩
  case startProtocol => exact ⟨rfl, .inr ⟨rfl, rfl, rfl⟩⟩
  case resting hp => exact (hp.elim hidle hfaulted).elim
  case operation hl' _ => exact absurd (hl'.symm.trans hl) (by decide)
  case waitEnds hb' | setData hb' _ => exact absurd (hb.symm.trans hb') (by decide)
  case startIgnored hp => exact absurd hp hfaulted
  case startIllegal hp _ _ | startLatched hp _ => exact absurd hp hidle
  case reset ht => exact absurd (by rw [ht]; rfl) hm

/-- Settles O57: the duty as `holdsExactly` says it; the refused turn is O4's, and the other steps are those of a `BUSY` block
without the duty. -/
theorem wrongLengthGivesNoResult : Obligations.WrongLengthGivesNoResult := by
  unfold Obligations.WrongLengthGivesNoResult
  refine ⟨State.lengthIsTrue_iff, fun s hb hl => ⟨fun hp turn => ?_, fun t h hm => ?_⟩⟩
  · obtain ⟨i, hd⟩ := decodePhase_of_busy hb hp
    exact (stepRunsThePhaseOperation s i hd).2 hl turn
  · exact (step_effect s t h).of_wrong_length hb hl hm

end Sys2Proof.Machine
end

section
/-! The host's moves (70_reset_and_hazards.md R203), each with its next state: START (R204), the reset event (R200), the reads
(R205) and the connection of DATA (R206). -/

namespace Sys2Proof.Machine

section Moves

variable {s : State}

/-- START in `FAULTED` is ignored, whatever the word; the inputs stay on the ports (log 8). -/
theorem startMove_of_faulted (hp : s.ph = Phase.faulted) (cmd : BitVec 8) (arg len : Word) :
    startMove s cmd arg len = .next { s with ports := ⟨cmd, arg, len⟩ } := by
  simp [startMove_eq, State.start, State.startIllegal, hp]

/-- START while `BUSY` is the fault entry `PROTOCOL`, whatever the word. -/
theorem startMove_of_busy (hidle : s.ph ≠ Phase.idle) (hfaulted : s.ph ≠ Phase.faulted) (cmd : BitVec 8) (arg len : Word) :
    startMove s cmd arg len = .next (State.raise { s with ports := ⟨cmd, arg, len⟩ } .protocol) := by
  simp [startMove_eq, State.start, State.startIllegal, hidle, hfaulted]

theorem State.resetEvent_status (s : State) : s.resetEvent.status = 0x00 := by
  simp [State.status, State.busy, State.faulted]

theorem readRes_of_done (hd : s.done = true) : readRes s = { s with observed := .res s.res :: s.observed } :=
  if_pos hd

theorem readRes_of_not_done (hd : s.done = false) :
    readRes s =
      { s with observed := .res (Config.freeWord s.freeCount) :: s.observed, freeCount := s.freeCount + 1 } :=
  if_neg (Bool.eq_false_iff.1 hd)

theorem setDataMove_of_busy (hb : s.busy = true) (bytes : List Byte) :
    setDataMove s bytes = .refused .dataChangedWhileBusy :=
  if_pos hb

theorem setDataMove_of_fits {bytes : List Byte} (hb : s.busy = false) (hlen : bytes.length < 2 ^ 64) :
    setDataMove s bytes = .next { s with data := Memory.ofBytes bytes } := by
  have hseq : WellFormed.sequence bytes = true := decide_eq_true hlen
  rw [setDataMove, if_neg (Bool.eq_false_iff.1 hb), if_pos hseq]

theorem setDataMove_of_too_long {bytes : List Byte} (hb : s.busy = false) (hlen : 2 ^ 64 ≤ bytes.length) :
    setDataMove s bytes = .refused .dataTooLong := by
  have hseq : ¬ WellFormed.sequence bytes = true := fun h => hlen.not_gt (of_decide_eq_true h)
  rw [setDataMove, if_neg (Bool.eq_false_iff.1 hb), if_neg hseq]

end Moves

/-- Settles O8: the step is START's move, whose answer depends on the word in `IDLE` alone. -/
theorem startMoveFollowsItsPseudocode : Obligations.StartMoveFollowsItsPseudocode := by
  unfold Obligations.StartMoveFollowsItsPseudocode
  intro s rest cmd arg len ht
  let u : State := { s with turns := rest }
  have hstep : step s = startMove u cmd arg len := step_of_turns_host ht
  refine ⟨fun hp => ?_, fun hfaulted hidle => ?_, fun hp h2 => ?_, fun hp h1 => ?_, fun hp h2 h1 => ?_⟩
  · exact hstep.trans (startMove_of_faulted (s := u) hp cmd arg len)
  · exact hstep.trans (startMove_of_busy (s := u) hidle hfaulted cmd arg len)
  · subst h2
    exact hstep.trans (startMove_of_idle (s := u) hp 0x02 arg len)
  · subst h1
    exact hstep.trans (startMove_of_idle (s := u) hp 0x01 arg len)
  · exact hstep.trans ((startMove_of_illegal u arg len h1 h2).trans
      (congrArg Host.Outcome.next (State.startIllegal_of_idle hp)))

/-- Settles O14: the reset event does not ask for the phase. -/
theorem resetEventFromAnyPhase : Obligations.ResetEventFromAnyPhase := by
  unfold Obligations.ResetEventFromAnyPhase
  intro s rest ht
  exact ⟨_, step_of_turns_host ht, State.resetEvent_ph _, State.resetEvent_done _, State.resetEvent_fcode _,
    State.resetEvent_status _, State.resetEvent_params _, State.resetEvent_data _⟩

/-- Settles O18: a read adds to the host's record, and the free value of log 4 is the one the count gives. -/
theorem hostReadsStatusAndResult : Obligations.HostReadsStatusAndResult := by
  unfold Obligations.HostReadsStatusAndResult
  intro s rest
  let u : State := { s with turns := rest }
  have hread : s.turns = .host .readRes :: rest → step s = .next (readRes u) := step_of_turns_host
  refine ⟨step_of_turns_host, fun ht hd => ?_, fun ht hd => ⟨Config.freeWord s.freeCount, ?_⟩⟩
  · exact (hread ht).trans (congrArg Host.Outcome.next (readRes_of_done (s := u) hd))
  · exact (hread ht).trans (congrArg Host.Outcome.next (readRes_of_not_done (s := u) hd))

/-- Settles O19: the memory connected is the sequence laid out from offset 0, which is canonical and serves its bytes. -/
theorem hostConnectsData : Obligations.HostConnectsData := by
  unfold Obligations.HostConnectsData
  intro s rest bytes ht
  let u : State := { s with turns := rest }
  have hstep : step s = setDataMove u bytes := step_of_turns_host ht
  have hresting : s.ph = 0 ∨ s.ph = 15 → u.busy = false := u.busy_eq_false_iff.2
  refine ⟨fun hp hlen => ?_, fun hidle hfaulted => ?_, fun hp hlen => ?_⟩
  · exact ⟨_, hstep.trans (setDataMove_of_fits (hresting hp) hlen), rfl, Memory.ofBytes_wf bytes hlen,
      Memory.read_ofBytes bytes⟩
  · exact hstep.trans (setDataMove_of_busy (u.busy_eq_true_iff.2 ⟨hidle, hfaulted⟩) bytes)
  · exact hstep.trans (setDataMove_of_too_long (hresting hp) hlen)

end Sys2Proof.Machine
end

section
/-! Encoding and decoding as inverses (30_encoding.md sections 1 and 3), on codes and on the bytes they lie in (log 13). -/

namespace Sys2Proof.Machine

/-- Row by row of the two tables (30_encoding.md R76, R78). -/
theorem decode_encode (i : Instr) : decode (encode i) = .ok i := by
  cases i <;> rfl

theorem encode_of_decode {c : Code} {i : Instr} (h : decode c = .ok i) : encode i = c := by
  cases c with
  | cmd w => exact decodeCmd_eq_ok w i h
  | ph c => exact decodePhase_eq_ok c i h

/-- The format a code belongs to (30_encoding.md R75); `format_encode` ties it to the operation's. -/
def codeFormat : Code → Format
  | .cmd _ => .cmd
  | .ph _ => .ph

theorem format_encode (i : Instr) : codeFormat (encode i) = i.format := by
  cases i <;> rfl

/-- A code laid out in a byte is read back in its own format. -/
theorem codeOfByte_toByte (c : Code) : codeOfByte (codeFormat c) c.toByte = .ok c := by
  cases c with
  | cmd w => rfl
  | ph c =>
    have upperClear : ∀ c : BitVec 4, (c.setWidth 8).extractLsb' 4 4 = 0 := by decide
    have lower : ∀ c : BitVec 4, (c.setWidth 8).extractLsb' 0 4 = c := by decide
    simp only [codeFormat, codeOfByte, Code.toByte, upperClear, lower, if_true]

/-- A byte read as a code is that code laid out: with the upper nibble clear the lower one is the whole byte. -/
theorem codeOfByte_eq_ok {f : Format} {b : Byte} {c : Code} (h : codeOfByte f b = .ok c) :
    codeFormat c = f ∧ b = c.toByte := by
  cases f with
  | cmd =>
    cases h
    exact ⟨rfl, rfl⟩
  | ph =>
    have nibble : ∀ b : Byte, b.extractLsb' 4 4 = 0 → b = (b.extractLsb' 0 4).setWidth 8 := by decide
    simp only [codeOfByte] at h
    split at h
    · rename_i hupper
      cases h
      exact ⟨rfl, nibble b hupper⟩
    · cases h

/-- Everything decoding from bytes can answer: the first byte's operation, and the bytes after it. -/
theorem decodeBytes_eq_ok_iff {f : Format} {bs rest : List Byte} {i : Instr} :
    decodeBytes f bs = .ok (i, rest) ↔ ∃ b c, bs = b :: rest ∧ codeOfByte f b = .ok c ∧ decode c = .ok i := by
  cases bs with
  | nil => simp [decodeBytes]
  | cons b bs =>
    cases hc : codeOfByte f b with
    | error e => simp [decodeBytes, hc]
    | ok c => cases hi : decode c <;> simp [decodeBytes, hc, hi, and_comm]

/-- Settles O3: the laws on codes carry over to bytes, since a code is read back from the byte it is laid out in. -/
theorem decodeEncodeAgree : Obligations.DecodeEncodeAgree := by
  unfold Obligations.DecodeEncodeAgree
  refine ⟨fun i _ => decode_encode i, fun c i h => encode_of_decode h, fun i rest => ?_, fun f bs rest i h => ?_⟩
  · rw [← format_encode]
    exact decodeBytes_eq_ok_iff.2 ⟨_, encode i, rfl, codeOfByte_toByte (encode i), decode_encode i⟩
  · obtain ⟨b, c, rfl, hc, hi⟩ := decodeBytes_eq_ok_iff.1 h
    obtain rfl := encode_of_decode hi
    obtain ⟨hformat, rfl⟩ := codeOfByte_eq_ok hc
    exact ⟨(format_encode i).symm.trans hformat, rfl⟩

end Sys2Proof.Machine
end

section
/-! The invariant of the machine (43_hash64_sequence.md R144, R145, R146; 10_state.md R29; 60_exceptions.md R171): it holds at
reset and every step keeps it. Each phase asks for one clause of `State.cursorOk`, and each operation gives its successor's. -/

namespace Sys2Proof.Machine

section Clauses

variable {s : State}

theorem State.cursorOk_iff_of_bulk (hp : s.ph = Phase.bulk) :
    s.cursorOk ↔ s.off.toNat + s.l.toNat = s.n.toNat ∧ s.l.toNat % 32 = s.n.toNat % 32 ∧ s.i.toNat ≤ 3 ∧
      (s.i ≠ 0 → 32 ≤ s.l.toNat) := by
  simp [State.cursorOk, hp]

theorem State.cursorOk_iff_of_tail (hp : s.ph = Phase.leninj ∨ s.ph = Phase.oddb) :
    s.cursorOk ↔ s.off.toNat + s.l.toNat = s.n.toNat ∧ s.l.toNat = s.n.toNat % 32 := by
  rcases hp with hp | hp <;> simp [State.cursorOk, hp]

theorem State.cursorOk_iff_of_fin0 (hp : s.ph = Phase.fin0) :
    s.cursorOk ↔ s.off.toNat + s.l.toNat = s.n.toNat ∧ s.l.toNat = evenTail s.n.toNat := by
  simp [State.cursorOk, hp]

theorem State.cursorOk_iff_of_chunk8 (hp : s.ph = Phase.chunk8) :
    s.cursorOk ↔ s.off.toNat + s.l.toNat = s.n.toNat ∧ 1 ≤ s.i.toNat ∧
      s.l.toNat + 8 * s.i.toNat = evenTail s.n.toNat + 8 := by
  simp [State.cursorOk, hp]

theorem State.cursorOk_iff_of_tail2 (hp : s.ph = Phase.tail2) :
    s.cursorOk ↔ s.off.toNat + s.l.toNat = s.n.toNat ∧ s.l.toNat + 2 * s.i.toNat = evenTail s.n.toNat % 8 := by
  simp [State.cursorOk, hp]

theorem State.cursorOk_iff_of_end (hp : s.ph = Phase.combine ∨ s.ph = Phase.aval ∨ s.ph = Phase.ret) :
    s.cursorOk ↔ s.off.toNat = s.n.toNat ∧ s.l.toNat = 0 := by
  rcases hp with hp | hp | hp <;> simp [State.cursorOk, hp]

/-- The other phases ask nothing of the cursor. -/
theorem State.cursorOk_of_other
    (hp : s.ph = Phase.idle ∨ s.ph = Phase.init ∨ s.ph = Phase.ldw ∨ s.ph = Phase.faulted) : s.cursorOk := by
  rcases hp with hp | hp | hp | hp <;> simp [State.cursorOk, hp]

theorem evenTail_le (n : Nat) : evenTail n ≤ n % 32 := Nat.sub_le _ _

theorem evenTail_mod_two (n : Nat) : evenTail n % 2 = 0 := by
  unfold evenTail
  omega

/-- At an operation's phase no fault is on record and `DONE` is 0 (10_state.md R29). -/
theorem State.statusOk.of_decodePhase (h : s.statusOk) {i : Instr} (hd : decodePhase s.ph = .ok i) :
    s.done = false ∧ s.fcode = 0 := by
  obtain ⟨hidle, hfaulted⟩ := s.busy_eq_true_iff.1 (busy_of_decodePhase s i hd)
  obtain ⟨hdone, hfcode, -⟩ := h
  exact ⟨Bool.eq_false_iff.2 fun hd => hidle (hdone hd), not_not.1 fun hf => hfaulted (hfcode.1 hf)⟩

/-- With no fault on record `DONE` may stand in `IDLE`, and a phase in progress has it at 0. -/
theorem State.statusOk_of_no_fault (hf : s.fcode = 0) (hp : s.ph ≠ Phase.faulted)
    (hd : s.done = false ∨ s.ph = Phase.idle) : s.statusOk := by
  refine ⟨fun h => hd.resolve_left (Bool.not_eq_false _ ▸ h), ?_, ?_⟩ <;> simp [hf, hp]

theorem State.statusOk_raise (c : FaultCode) : (s.raise c).statusOk := by
  cases c <;> simp [State.statusOk, FaultCode.code]

theorem State.Inv.raise (h : s.Inv) (c : FaultCode) : (s.raise c).Inv := by
  obtain ⟨-, -, -, hparams, hdata⟩ := h
  exact ⟨.inr rfl, State.cursorOk_of_other (.inr (.inr (.inr rfl))), State.statusOk_raise c, hparams, hdata⟩

/-- A word step keeps the clause of `BULK`: only the fourth word of a whole block moves the cursor (41_mixer.md R111). -/
theorem State.cursorOk_absorb (hp : s.ph = Phase.bulk) (h : s.cursorOk) (hstart : s.i = 0 → 32 ≤ s.l.toNat) {k : Fin 4}
    {w : Word} : (s.absorb k w).cursorOk := by
  obtain ⟨hsum, hmod, hi, hblock⟩ := (State.cursorOk_iff_of_bulk hp).1 h
  have hwhole : 32 ≤ s.l.toNat := if h0 : s.i = 0 then hstart h0 else hblock h0
  refine (State.cursorOk_iff_of_bulk rfl).2 ?_
  by_cases hlast : s.i = 3
  · rw [State.absorb_last hlast]
    dsimp only
    bv_omega
  · rw [State.absorb_not_last hlast]
    dsimp only
    bv_omega

end Clauses

section Operations

variable {i : Instr} {s t : State} (he : Effect i s t) (hd : decodePhase s.ph = .ok i)
include he hd

theorem Effect.phaseOk : t.phaseOk := by
  have hcommand := not_command_of_decodePhase s.ph i hd
  cases he
  case ldle64Ignored | hash64Ignored | ldle64Latched | hash64Latched => simp at hcommand
  case ldle64Protocol | hash64Protocol | chunk8LaneIndex | tail2LaneIndex | ldwBounds => exact .inr rfl
  all_goals exact .inl (by simp)

/-- A micro-operation takes a fault, or leaves `FCODE` and goes to a phase that is not `FAULTED`; `DONE` is set where it goes to
`IDLE`. -/
theorem Effect.statusOk (h : s.statusOk) : t.statusOk := by
  obtain ⟨hdone, hfcode⟩ := h.of_decodePhase hd
  have hcommand := not_command_of_decodePhase s.ph i hd
  cases he
  case ldle64Ignored | hash64Ignored | ldle64Latched | hash64Latched => simp at hcommand
  case ldle64Protocol | hash64Protocol | chunk8LaneIndex | tail2LaneIndex | ldwBounds => exact State.statusOk_raise _
  case ret | ldwWord => exact State.statusOk_of_no_fault hfcode (by simp) (.inr rfl)
  all_goals exact State.statusOk_of_no_fault hfcode (by simp) (.inl hdone)

/-- The clause of the phase an operation runs in gives the clause of the phase it goes to (43_hash64_sequence.md R144, R145,
R146). -/
theorem Effect.cursorOk (h : s.cursorOk) : t.cursorOk := by
  have hcode := decodePhase_eq_ok s.ph i hd
  have hp : ∀ c, encode i = .ph c → s.ph = c := fun c hc => Code.ph.inj (hcode.symm.trans hc)
  cases he
  case ldle64Ignored | ldle64Latched | hash64Ignored | hash64Latched => cases hcode
  case ldle64Protocol | hash64Protocol | chunk8LaneIndex | tail2LaneIndex | ldwBounds =>
    exact State.cursorOk_of_other (.inr (.inr (.inr rfl)))
  case ret | ldwWord => exact State.cursorOk_of_other (.inl rfl)
  case init => exact (State.cursorOk_iff_of_bulk rfl).2 (by simp)
  case bulkExit hi hl =>
    obtain ⟨hsum, hmod, -, -⟩ := (State.cursorOk_iff_of_bulk (hp _ rfl)).1 h
    exact (State.cursorOk_iff_of_tail (.inl rfl)).2 ⟨hsum, by rw [← hmod, Nat.mod_eq_of_lt hl]⟩
  case bulkWord k w hc hk hw =>
    exact State.cursorOk_absorb (hp _ rfl) h fun hi => Nat.not_lt.1 fun hl => hc ⟨hi, hl⟩
  case leninj =>
    exact (State.cursorOk_iff_of_tail (.inr rfl)).2 ((State.cursorOk_iff_of_tail (.inl (hp _ rfl))).1 h)
  case oddbEven hl =>
    obtain ⟨hsum, hrest⟩ := (State.cursorOk_iff_of_tail (.inr (hp _ rfl))).1 h
    refine (State.cursorOk_iff_of_fin0 rfl).2 ⟨hsum, ?_⟩
    unfold evenTail
    dsimp only
    omega
  case oddbOdd b hl hb =>
    obtain ⟨hsum, hrest⟩ := (State.cursorOk_iff_of_tail (.inr (hp _ rfl))).1 h
    refine (State.cursorOk_iff_of_fin0 rfl).2 ?_
    unfold evenTail
    dsimp only
    bv_omega
  case fin0 =>
    obtain ⟨hsum, hrest⟩ := (State.cursorOk_iff_of_fin0 (hp _ rfl)).1 h
    exact (State.cursorOk_iff_of_chunk8 rfl).2 ⟨hsum, Nat.le_refl 1, congrArg (· + 8) hrest⟩
  case chunk8Exit hl =>
    obtain ⟨hsum, hi, hrest⟩ := (State.cursorOk_iff_of_chunk8 (hp _ rfl)).1 h
    refine (State.cursorOk_iff_of_tail2 rfl).2 ⟨hsum, ?_⟩
    simp
    omega
  case chunk8Word k w hl hk hw =>
    obtain ⟨hsum, hi, hrest⟩ := (State.cursorOk_iff_of_chunk8 (hp _ rfl)).1 h
    refine (State.cursorOk_iff_of_chunk8 rfl).2 ?_
    dsimp only
    bv_omega
  case tail2Exit hl =>
    obtain ⟨hsum, hrest⟩ := (State.cursorOk_iff_of_tail2 (hp _ rfl)).1 h
    exact (State.cursorOk_iff_of_end (.inl rfl)).2 ⟨by dsimp only; omega, hl⟩
  case tail2Pair k v hl hk hv =>
    obtain ⟨hsum, hrest⟩ := (State.cursorOk_iff_of_tail2 (hp _ rfl)).1 h
    refine (State.cursorOk_iff_of_tail2 rfl).2 ?_
    dsimp only [State.foldTail]
    bv_omega
  case tail2Single k v hl hk hv =>
    obtain ⟨hsum, hrest⟩ := (State.cursorOk_iff_of_tail2 (hp _ rfl)).1 h
    have := evenTail_mod_two s.n.toNat
    omega
  case combine =>
    exact (State.cursorOk_iff_of_end (.inr (.inl rfl))).2 ((State.cursorOk_iff_of_end (.inl (hp _ rfl))).1 h)
  case aval =>
    exact (State.cursorOk_iff_of_end (.inr (.inr rfl))).2 ((State.cursorOk_iff_of_end (.inr (.inl (hp _ rfl)))).1 h)

theorem Effect.inv (h : s.Inv) : t.Inv := by
  obtain ⟨-, hcursor, hstatus, hparams, hdata⟩ := h
  exact ⟨he.phaseOk hd, he.cursorOk hd hcursor, he.statusOk hd hstatus, he.params_eq.symm ▸ hparams,
    he.data_eq.symm ▸ hdata⟩

end Operations

/-- The host's moves write nothing the invariant speaks of, or come to a phase that asks nothing of the cursor. -/
theorem StepEffect.inv {s t : State} (he : StepEffect s t) (h : s.Inv) : t.Inv := by
  obtain ⟨hphase, hcursor, hstatus, hparams, hdata⟩ := id h
  cases he
  case operation rest i turn hd hl he => exact he.inv hd h
  case startProtocol rest cmd arg len ht hb =>
    exact State.Inv.raise (s := { s with turns := rest, ports := ⟨cmd, arg, len⟩ }) h .protocol
  case startIllegal rest cmd arg len ht hp h1 h2 =>
    exact State.Inv.raise (s := { s with turns := rest, ports := ⟨cmd, arg, len⟩ }) h .illegalCmd
  case startLatched rest cmd arg len entry ht hp hc =>
    obtain ⟨-, hfault, -⟩ := hstatus
    have hfcode : s.fcode = 0 := not_not.1 fun hf => idle_ne_faulted (hp.symm.trans (hfault.1 hf))
    rcases hc with ⟨-, rfl⟩ | ⟨-, rfl⟩
    · exact ⟨.inl (by simp), State.cursorOk_of_other (.inr (.inr (.inl rfl))),
        State.statusOk_of_no_fault hfcode (by simp) (.inl rfl), hparams, hdata⟩
    · exact ⟨.inl (by simp), State.cursorOk_of_other (.inr (.inl rfl)),
        State.statusOk_of_no_fault hfcode (by simp) (.inl rfl), hparams, hdata⟩
  case reset rest ht =>
    exact ⟨.inl (by simp), State.cursorOk_of_other (.inl rfl), State.statusOk_of_no_fault rfl (by simp) (.inr rfl),
      hparams, hdata⟩
  case setData rest bytes ht hb hw =>
    exact ⟨hphase, hcursor, hstatus, hparams, Memory.ofBytes_wf bytes (of_decide_eq_true hw)⟩
  all_goals exact h

/-- Settles O48: every effect of a step keeps the invariant. -/
theorem everyStepKeepsTheInvariant : Obligations.EveryStepKeepsTheInvariant := by
  unfold Obligations.EveryStepKeepsTheInvariant
  intro s t h hstep
  exact (step_effect s t hstep).inv h

/-- Settles O49: the values of the literal `State.reset`, with the default parameters. -/
theorem resetMeetsTheInvariant : Obligations.ResetMeetsTheInvariant := by
  unfold Obligations.ResetMeetsTheInvariant
  decide

end Sys2Proof.Machine
end

section
/-! No stop while the host keeps its duty (43_hash64_sequence.md R147): under the invariant every read of an operation lies below
`N`, where the duty serves it (70_reset_and_hazards.md R206 a). -/

namespace Sys2Proof.Machine

section Progress

variable {s : State} (hl : s.lengthIsTrue = true)
include hl

/-- A meaning goes on after a read within bounds, whatever the width of the value. -/
theorem exists_withRead_eq_next {α : Type} {a n : Nat} (hb : a + n ≤ s.n.toNat) (value : Nat → α) (k : α → State) :
    ∃ t, withRead ((s.memRead a n).map value) (fun v => .next (k v)) = .next t := by
  obtain ⟨r, hr⟩ := s.memRead_served a n hb (s.read_of_lengthIsTrue hl)
  exact ⟨k (value r), by rw [hr]; rfl⟩

/-- `BULK` reads inside a whole block, which ends at `N` or before. -/
theorem exists_execBulk_eq_next (hp : s.ph = Phase.bulk) (h : s.cursorOk) : ∃ t, execBulk s = .next t := by
  obtain ⟨hsum, -, hi, hblock⟩ := (State.cursorOk_iff_of_bulk hp).1 h
  by_cases hexit : s.i = 0 ∧ s.l.toNat < 32
  · exact ⟨_, execBulk_exit hexit⟩
  · obtain ⟨k, hk⟩ := exists_laneOf?_eq_some hi
    have hwhole : 32 ≤ s.l.toNat := if h0 : s.i = 0 then Nat.not_lt.1 fun hl => hexit ⟨h0, hl⟩ else hblock h0
    have hb : bulkAddress s.off s.i + 8 ≤ s.n.toNat := by
      simp only [bulkAddress, Config.word]
      omega
    rw [execBulk_word hexit hk]
    exact exists_withRead_eq_next hl hb _ _

theorem exists_execOddb_eq_next (hp : s.ph = Phase.oddb) (h : s.cursorOk) : ∃ t, execOddb s = .next t := by
  obtain ⟨hsum, -⟩ := (State.cursorOk_iff_of_tail (.inr hp)).1 h
  by_cases hodd : s.l.getLsbD 0 = true
  · have hpos : s.l.toNat % 2 = 1 := by rwa [getLsbD_zero_eq_odd, decide_eq_true_eq] at hodd
    rw [execOddb_odd hodd]
    exact exists_withRead_eq_next hl (by omega) _ _
  · exact ⟨_, execOddb_even hodd⟩

theorem exists_execChunk8_eq_next (hp : s.ph = Phase.chunk8) (h : s.cursorOk) : ∃ t, execChunk8 s = .next t := by
  obtain ⟨hsum, -⟩ := (State.cursorOk_iff_of_chunk8 hp).1 h
  by_cases hchunk : 8 ≤ s.l.toNat
  · cases hk : laneOf? s.i with
    | none => exact ⟨_, execChunk8_noLane hchunk hk⟩
    | some k =>
      rw [execChunk8_word hchunk hk]
      exact exists_withRead_eq_next hl (by simp only [Config.word]; omega) _ _
  · exact ⟨_, execChunk8_exit hchunk⟩

theorem exists_execTail2_eq_next (hp : s.ph = Phase.tail2) (h : s.cursorOk) : ∃ t, execTail2 s = .next t := by
  obtain ⟨hsum, -⟩ := (State.cursorOk_iff_of_tail2 hp).1 h
  by_cases hrest : 0 < s.l.toNat
  · cases hk : laneOf? s.i with
    | none => exact ⟨_, execTail2_noLane hrest hk⟩
    | some k =>
      by_cases hpair : 2 ≤ s.l.toNat
      · rw [execTail2_pair hpair hk]
        exact exists_withRead_eq_next hl (by omega) _ _
      · rw [execTail2_single hrest hpair hk]
        exact exists_withRead_eq_next hl (by omega) _ _
  · exact ⟨_, execTail2_exit hrest⟩

theorem exists_execLdw_eq_next : ∃ t, execLdw s = .next t := by
  by_cases hb : s.n.toNat < s.a.toNat + 8
  · exact ⟨_, execLdw_bounds hb⟩
  · rw [execLdw_word hb]
    exact exists_withRead_eq_next hl (Nat.not_lt.1 hb) _ _

/-- Every micro-operation completes. -/
theorem exists_exec_eq_next {i : Instr} (hd : decodePhase s.ph = .ok i) (h : s.cursorOk) : ∃ t, exec i s = .next t := by
  have hcode := decodePhase_eq_ok s.ph i hd
  cases i
  case bulk => exact exists_execBulk_eq_next hl (Code.ph.inj hcode).symm h
  case oddb => exact exists_execOddb_eq_next hl (Code.ph.inj hcode).symm h
  case chunk8 => exact exists_execChunk8_eq_next hl (Code.ph.inj hcode).symm h
  case tail2 => exact exists_execTail2_eq_next hl (Code.ph.inj hcode).symm h
  case ldw => exact exists_execLdw_eq_next hl
  all_goals exact ⟨_, rfl⟩

end Progress

section Served

variable {s t : State}

/-- The sequencer's turn answers a next state. -/
theorem exists_sequencerTurn_eq_next (h : s.Inv) (hserved : s.served) : ∃ t, sequencerTurn s = .next t := by
  obtain ⟨hphase, hcursor, -⟩ := h
  by_cases hb : s.busy = true
  · obtain ⟨i, hd⟩ := decodePhase_of_busy hb hphase
    rw [sequencerTurn_of_lengthIsTrue s i hd (hserved hb)]
    exact exists_exec_eq_next (hserved hb) hd hcursor
  · exact ⟨s, sequencerTurn_of_resting (s.busy_eq_false_iff.1 (Bool.eq_false_iff.2 hb))⟩

/-- The sequencer writes neither DATA nor `N`, so the duty stays kept. -/
theorem StepEffect.served (he : StepEffect s t) (turn : s.sequencerHasTurn) (hserved : s.served) : t.served := by
  rcases he.of_sequencerHasTurn turn with ⟨-, rest, rfl⟩ | ⟨rest, i, hd, hl, he⟩
  · exact hserved
  · intro _
    rw [State.lengthIsTrue, he.data_eq, (he.latches_eq (not_command_of_decodePhase _ i hd)).2]
    exact hl

/-- `LANE_INDEX` is never raised: where `i` is above 3 too little of the tail is left (43_hash64_sequence.md R146). -/
theorem State.not_raises_laneIndex (h : s.cursorOk) : ¬ s.Raises .laneIndex := by
  have htail := evenTail_le s.n.toNat
  rintro ⟨-, hi, ⟨hp, hl⟩ | ⟨hp, hl⟩⟩
  · obtain ⟨-, -, hrest⟩ := (State.cursorOk_iff_of_chunk8 hp).1 h
    omega
  · obtain ⟨-, hrest⟩ := (State.cursorOk_iff_of_tail2 hp).1 h
    omega

/-- Of the four faults the sequencer can raise `BOUNDS` alone. -/
theorem State.Raises.bounds_of_sequencerHasTurn {c : FaultCode} (hc : s.Raises c) (turn : s.sequencerHasTurn)
    (h : s.cursorOk) : s.ph = Phase.ldw ∧ s.n.toNat < s.a.toNat + 8 := by
  cases c with
  | illegalCmd =>
    obtain ⟨cmd, arg, len, rest, ht, -⟩ := hc
    exact absurd turn (not_sequencerHasTurn_of_head?_host (by rw [ht]; rfl))
  | protocol =>
    obtain ⟨cmd, arg, len, rest, ht, -⟩ := hc
    exact absurd turn (not_sequencerHasTurn_of_head?_host (by rw [ht]; rfl))
  | bounds => exact hc.2
  | laneIndex => exact absurd hc (State.not_raises_laneIndex h)

end Served

/-- Settles O50: the turn completes, and its effect keeps the invariant and the duty and raises nothing but `BOUNDS`. -/
theorem sequencerNeverStops : Obligations.SequencerNeverStops := by
  unfold Obligations.SequencerNeverStops
  intro s h hserved turn
  obtain ⟨-, hcursor, -⟩ := id h
  obtain ⟨rest, hstep⟩ := step_of_sequencerHasTurn turn
  obtain ⟨t, ht⟩ := exists_sequencerTurn_eq_next (s := { s with turns := rest }) h hserved
  have he := step_effect s t (hstep.trans ht)
  refine ⟨t, hstep.trans ht, he.inv h, he.served turn hserved, fun hfault => or_iff_not_imp_left.2 fun hp => ?_⟩
  obtain ⟨-, -, c, -, hc⟩ := he.enters_fault hp hfault
  exact hc.bounds_of_sequencerHasTurn turn hcursor

end Sys2Proof.Machine
end

section
/-! Reads of several widths (20_memory.md R54) and the loader's round trip (40_loader.md R105): both say that a value read holds
the bytes it was read from. -/

namespace Sys2Proof.Machine

theorem extractLsb'_ofNat (w r start len : Nat) (h : start + len ≤ w) :
    (BitVec.ofNat w r).extractLsb' start len = BitVec.ofNat len (r / 2 ^ start) := by
  refine BitVec.eq_of_getLsbD_eq fun i hi => ?_
  have hin : start + i < w := by omega
  rw [BitVec.getLsbD_extractLsb', BitVec.getLsbD_ofNat, BitVec.getLsbD_ofNat, Nat.testBit_div_two_pow, Nat.add_comm i]
  simp [hi, hin]

/-- Byte `k` of the number that `n` bytes make is the byte at `a + k`, in any width that holds it. -/
theorem Memory.read_of_readLE {m : Memory} {a n r k w : Nat} (h : m.readLE a n = .ok r) (hk : k < n)
    (hw : 8 * k + 8 ≤ w) : m.read (a + k) = some ((BitVec.ofNat w r).extractLsb' (8 * k) 8) := by
  rw [extractLsb'_ofNat w r _ _ hw]
  clear hw
  induction n generalizing a r k with
  | zero => omega
  | succ n ih =>
    cases hb : m.read a with
    | none => simp [Memory.readLE, hb] at h
    | some b =>
      cases hrest : m.readLE (a + 1) n with
      | error o => simp [Memory.readLE, hb, hrest] at h
      | ok r' =>
        simp only [Memory.readLE, hb, hrest, Except.ok.injEq] at h
        subst h
        cases k with
        | zero =>
          have hbyte : BitVec.ofNat 8 (b.toNat + 256 * r') = b := BitVec.eq_of_toNat_eq (by simp; omega)
          simp [hbyte, hb]
        | succ k =>
          have hshift : (b.toNat + 256 * r') / 2 ^ (8 * (k + 1)) = r' / 2 ^ (8 * k) := by
            rw [Nat.mul_succ, Nat.add_comm (8 * k), Nat.pow_add, ← Nat.div_div_eq_div_mul]
            congr 1
            omega
          rw [hshift, ← ih hrest (k := k) (by omega)]
          congr 1
          omega

/-- The 1-byte read of a byte that is served (20_memory.md R52). -/
theorem State.memRead1_of_read {s : State} {a : Nat} {b : Byte} (hb : a + 1 ≤ s.n.toNat) (hread : s.data.read a = some b) :
    s.memRead1 a = .ok b := by
  have hok : s.memRead a 1 = .ok b.toNat := (s.memRead_eq_ok a 1 _).2 ⟨hb, by simp [Memory.readLE, hread]⟩
  rw [State.memRead1, hok, Except.map, BitVec.ofNat_toNat, BitVec.setWidth_eq]

/-- The 1-byte reads inside a wider read give the bytes of its value (20_memory.md R54). -/
theorem State.memRead1_of_memRead {s : State} {a n r k w : Nat} (h : s.memRead a n = .ok r) (hk : k < n)
    (hw : 8 * k + 8 ≤ w) : s.memRead1 (a + k) = .ok ((BitVec.ofNat w r).extractLsb' (8 * k) 8) := by
  obtain ⟨hb, hread⟩ := (s.memRead_eq_ok a n r).1 h
  exact State.memRead1_of_read (by omega) (Memory.read_of_readLE hread hk hw)

theorem exists_eq_ok_of_map_eq_ok {ε α β : Type} {f : α → β} {e : Except ε α} {b : β} (h : e.map f = .ok b) :
    ∃ a, e = .ok a ∧ f a = b := by
  cases e with
  | error o => cases h
  | ok a => exact ⟨a, rfl, Except.ok.inj h⟩

theorem or_bytes_eq (v : BitVec 16) :
    (v.extractLsb' 0 8).setWidth 16 ||| ((v.extractLsb' 8 8).setWidth 16 <<< 8) = v := by
  refine BitVec.eq_of_getLsbD_eq fun i hi => ?_
  by_cases hlow : i < 8
  · simp [hi, hlow]
  · have hhigh : i - 8 < 8 := by omega
    have hpos : 8 + (i - 8) = i := by omega
    simp [hi, hlow, hhigh, hpos, BitVec.getLsbD_eq_getElem]

/-- Settles O21: the bytes of a value read are the 1-byte reads, and a 16-bit value is its two bytes put together. -/
theorem mixedWidthReadsAgree : Obligations.MixedWidthReadsAgree := by
  unfold Obligations.MixedWidthReadsAgree
  intro s a
  refine ⟨fun v hv k hk => ?_, fun v hv => ?_⟩
  · obtain ⟨r, hr, rfl⟩ := exists_eq_ok_of_map_eq_ok hv
    exact State.memRead1_of_memRead hr hk (by omega)
  · obtain ⟨r, hr, rfl⟩ := exists_eq_ok_of_map_eq_ok hv
    exact ⟨_, _, State.memRead1_of_memRead (k := 0) hr (by decide) (by decide),
      State.memRead1_of_memRead hr (by decide) (by decide), (or_bytes_eq _).symm⟩

/-- Two words with the same eight bytes are one. -/
theorem word_eq_of_bytes {v w : Word} (h : ∀ k, k < 8 → v.extractLsb' (8 * k) 8 = w.extractLsb' (8 * k) 8) : v = w := by
  refine BitVec.eq_of_getLsbD_eq fun i hi => ?_
  have hbit := congrArg (·.getLsbD (i % 8)) (h (i / 8) (by omega))
  have hmod : i % 8 < 8 := Nat.mod_lt i (by decide)
  simpa only [BitVec.getLsbD_extractLsb', hmod, decide_true, Bool.true_and, Nat.div_add_mod] using hbit

/-- Byte `k` of the loader's value is byte `a + k` of the sequence (40_loader.md R100). -/
theorem getElem?_of_le64 {bytes : List Byte} {a k : Nat} {v : Word} (hv : le64 bytes a = some v) (hk : k < 8) :
    bytes[a + k]? = some (v.extractLsb' (8 * k) 8) := by
  obtain ⟨hb, rfl⟩ := le64_eq_some_iff.1 hv
  obtain ⟨r, hread, hvalue⟩ := Memory.readLE_ofBytes hb
  rw [← Memory.read_ofBytes, ← hvalue]
  exact Memory.read_of_readLE hread hk (by omega)

/-- The eight bytes of a word, the least significant first; `getElem?_wordBytes` says what they are. -/
def wordBytes (v : Word) : List Byte := (List.range 8).map fun k => v.extractLsb' (8 * k) 8

theorem length_wordBytes (v : Word) : (wordBytes v).length = 8 := by
  simp [wordBytes]

theorem getElem?_wordBytes (v : Word) {k : Nat} (hk : k < 8) : (wordBytes v)[k]? = some (v.extractLsb' (8 * k) 8) := by
  simp [wordBytes, hk]

theorem le64_of_length_eq_eight {bytes : List Byte} (h : bytes.length = 8) : ∃ v, le64 bytes 0 = some v :=
  ⟨_, le64_eq_rdBytes (by omega)⟩

/-- Settles O22: the loader's value holds the bytes, and the bytes of a word determine it. -/
theorem loaderRoundTrip : Obligations.LoaderRoundTrip := by
  unfold Obligations.LoaderRoundTrip
  refine ⟨fun bytes hlength => ?_, fun v => ⟨wordBytes v, length_wordBytes v, ?_⟩⟩
  · obtain ⟨v, hv⟩ := le64_of_length_eq_eight hlength
    exact ⟨v, hv, fun k hk => by simpa only [Nat.zero_add] using getElem?_of_le64 hv hk⟩
  · obtain ⟨w, hw⟩ := le64_of_length_eq_eight (length_wordBytes v)
    have hbytes : w = v := word_eq_of_bytes fun k hk =>
      Option.some.inj ((getElem?_of_le64 hw hk).symm.trans ((Nat.zero_add k).symm ▸ getElem?_wordBytes v hk))
    rw [hw, hbytes]

/-- Settles O23: a read that answers is in bounds, where the loader has a value and the read gives it. -/
theorem eightByteReadIsTheLoader : Obligations.EightByteReadIsTheLoader := by
  unfold Obligations.EightByteReadIsTheLoader
  intro s bytes a hdata hlength
  refine ⟨?_, fun v => ⟨fun hv => ?_, State.memRead8_of_le64 hdata hlength⟩⟩
  · rw [Option.isSome_iff_exists]
    simp [le64_eq_some_iff]
  · obtain ⟨r, hr, -⟩ := exists_eq_ok_of_map_eq_ok hv
    obtain ⟨hb, -⟩ := (s.memRead_eq_ok a 8 r).1 hr
    have hload := le64_eq_rdBytes (hlength ▸ hb)
    rw [hload, Except.ok.inj (hv.symm.trans (State.memRead8_of_le64 hdata hlength hload))]

end Sys2Proof.Machine
end

section
/-! The mixing functions as bijections of the 64-bit values (41_mixer.md R119, 42_finalizer.md R133): a shift-and-xor and a
multiplication by an odd number are injective, and so a bijection of a finite set. -/

namespace Sys2Proof.Machine

/-- The difference of two words with one image is its own right shift, so it is 0. -/
theorem xorShiftRight_injective {s : Nat} (hs : 0 < s) : Function.Injective fun x => xorShiftRight x s := by
  intro x y h
  have hdiff : (x ^^^ y) >>> s = x ^^^ y := by
    have h' : x ^^^ (x >>> s) = y ^^^ (y >>> s) := h
    calc (x ^^^ y) >>> s
      _ = x ^^^ (x ^^^ (x >>> s)) ^^^ (y >>> s) := by
        rw [BitVec.ushiftRight_xor_distrib, ← BitVec.xor_assoc x, BitVec.xor_self, BitVec.zero_xor]
      _ = x ^^^ y := by
        rw [h', BitVec.xor_assoc, BitVec.xor_assoc, BitVec.xor_self, BitVec.xor_zero]
  have hzero : (x ^^^ y).toNat = 0 := by
    have hdiv := congrArg BitVec.toNat hdiff
    rw [BitVec.toNat_ushiftRight, Nat.shiftRight_eq_div_pow] at hdiv
    exact (Nat.div_eq_self.1 hdiv).resolve_right (Nat.one_lt_two_pow hs.ne').ne'
  exact BitVec.xor_eq_zero_iff.1 (BitVec.eq_of_toNat_eq hzero)

theorem mul_right_injective_of_odd {p : Word} (hp : p.getLsbD 0 = true) : Function.Injective fun v : Word => v * p := by
  intro v w h
  have hcoprime : Nat.gcd (2 ^ 64) p.toNat = 1 := by
    rw [getLsbD_zero_eq_odd, decide_eq_true_eq] at hp
    exact Nat.Coprime.pow_left 64 (Nat.coprime_two_left.2 (Nat.odd_iff.2 hp))
  have hmod : v.toNat * p.toNat ≡ w.toNat * p.toNat [MOD 2 ^ 64] := by
    simpa only [BitVec.toNat_mul, Nat.ModEq] using congrArg BitVec.toNat h
  have heq := Nat.ModEq.cancel_right_of_coprime hcoprime hmod
  exact BitVec.eq_of_toNat_eq (heq.eq_of_lt_of_lt v.isLt w.isLt)

theorem mixfin_injective {p : Word} (hp : p.getLsbD 0 = true) : Function.Injective fun v => mixfin v p :=
  (xorShiftRight_injective (s := Config.sh31) (by decide)).comp (mul_right_injective_of_odd hp)

/-- The five statements of R131, each injective (the multipliers are odd). -/
theorem avalanche_injective : Function.Injective avalanche :=
  (xorShiftRight_injective (s := Config.avS3) (by decide)).comp <|
    (mul_right_injective_of_odd (p := Config.m2) (by decide)).comp <|
      (xorShiftRight_injective (s := Config.avS2) (by decide)).comp <|
        (mul_right_injective_of_odd (p := Config.m1) (by decide)).comp <|
          xorShiftRight_injective (s := Config.avS1) (by decide)

theorem mixfin_zero (p : Word) : mixfin 0 p = 0 := by
  simp [mixfin]

/-- Settles O36: `avalanche` is injective on a finite set. -/
theorem avalancheIsABijection : Obligations.AvalancheIsABijection := by
  unfold Obligations.AvalancheIsABijection
  exact ⟨Finite.injective_iff_bijective.1 avalanche_injective, by decide⟩

/-- Settles O37: `mixfin` with an odd multiplier is injective on a finite set. -/
theorem mixfinIsABijection : Obligations.MixfinIsABijection := by
  unfold Obligations.MixfinIsABijection
  exact fun p hp => ⟨Finite.injective_iff_bijective.1 (mixfin_injective hp), mixfin_zero p⟩

end Sys2Proof.Machine
end

section
/-! The control of a `HASH64` run (70_reset_and_hazards.md R212): where a micro-operation leaves the phase and the cursor is a
function of the cursor and `N` alone. -/

namespace Sys2Proof.Machine

/-- The remainder, the offset and the lane index that micro-operation `i` of `HASH64` leaves; `Effect.cursor_after` ties it to
the meanings. -/
def cursorAfter (i : Instr) (s : State) : Word × Word × BitVec 3 :=
  match i with
  | .init => (s.n, 0, 0)
  | .bulk =>
    if s.i = 0 ∧ s.l.toNat < 32 then (s.l, s.off, s.i)
    else if s.i = 3 then (s.l - 32, s.off + 32, 0) else (s.l, s.off, s.i + 1)
  | .oddb => if s.l.toNat % 2 = 1 then (s.l - 1, s.off + 1, s.i) else (s.l, s.off, s.i)
  | .fin0 => (s.l, s.off, 1)
  | .chunk8 =>
    if 8 ≤ s.l.toNat then (if s.i.toNat ≤ 3 then (s.l - 8, s.off + 8, s.i + 1) else (s.l, s.off, s.i))
    else (s.l, s.off, 0)
  | .tail2 =>
    if 0 < s.l.toNat ∧ s.i.toNat ≤ 3 then
      (if 2 ≤ s.l.toNat then (s.l - 2, s.off + 2, s.i + 1) else (s.l - 1, s.off + 1, s.i + 1))
    else (s.l, s.off, s.i)
  | _ => (s.l, s.off, s.i)

theorem Effect.cursor_after {i : Instr} {s t : State} (he : Effect i s t) : (t.l, t.off, t.i) = cursorAfter i s := by
  cases he
  case bulkExit hi hl => exact (if_pos ⟨hi, hl⟩).symm
  case bulkWord k w hc hk hw =>
    rw [cursorAfter, if_neg hc]
    by_cases hlast : s.i = 3
    · rw [State.absorb_last hlast, if_pos hlast]
    · rw [State.absorb_not_last hlast, if_neg hlast]
  case oddbEven hl => simp [cursorAfter, hl]
  case oddbOdd b hl hb => exact (if_pos hl).symm
  case chunk8Exit hl => exact (if_neg (Nat.not_le.2 hl)).symm
  case chunk8LaneIndex hl hi => simp [cursorAfter, hl, hi]
  case chunk8Word k w hl hk hw =>
    have hi : s.i.toNat ≤ 3 := by omega
    simp [cursorAfter, hl, hi]
  case tail2Exit hl => simp [cursorAfter, hl]
  case tail2LaneIndex hl hi => simp [cursorAfter, hi]
  case tail2Pair k v hl hk hv | tail2Single k v hl hk hv =>
    have hi : s.i.toNat ≤ 3 := by omega
    have hrest : 0 < s.l.toNat := by omega
    simp [cursorAfter, hl, hi, hrest]
  all_goals rfl

section TwoStates

variable {i : Instr} {s₁ s₂ : State} (hl : s₁.l = s₂.l) (hi : s₁.i = s₂.i)
include hl hi

theorem phaseAfter_congr (hph : i.format = .ph) (hldw : i ≠ .ldw) : phaseAfter i s₁ = phaseAfter i s₂ := by
  cases i
  case ldle64 | hash64 => cases hph
  case ldw => exact absurd rfl hldw
  case bulk | chunk8 | tail2 => simp only [phaseAfter, hl, hi]
  all_goals rfl

theorem cursorAfter_congr (hn : s₁.n = s₂.n) (hoff : s₁.off = s₂.off) : cursorAfter i s₁ = cursorAfter i s₂ := by
  cases i <;> simp only [cursorAfter, hn, hl, hoff, hi]

end TwoStates

/-- Settles O46: the phase, `N` and the cursor after a micro-operation are functions of those before it. -/
theorem controlDependsOnLengthOnly : Obligations.ControlDependsOnLengthOnly := by
  unfold Obligations.ControlDependsOnLengthOnly
  intro i s₁ s₂ t₁ t₂ hph hldw hn hl hoff hi h₁ h₂
  have he₁ := exec_effect i s₁ t₁ h₁
  have he₂ := exec_effect i s₂ t₂ h₂
  have hmicro : i ∉ [Instr.ldle64, .hash64] := by
    cases i
    case ldle64 | hash64 => cases hph
    all_goals decide
  have hcursor : (t₁.l, t₁.off, t₁.i) = (t₂.l, t₂.off, t₂.i) :=
    calc (t₁.l, t₁.off, t₁.i)
      _ = cursorAfter i s₁ := he₁.cursor_after
      _ = cursorAfter i s₂ := cursorAfter_congr hl hi hn hoff
      _ = (t₂.l, t₂.off, t₂.i) := he₂.cursor_after.symm
  simp only [Prod.mk.injEq] at hcursor
  refine ⟨?_, ?_, hcursor⟩
  · rw [he₁.ph_eq, he₂.ph_eq, phaseAfter_congr hl hi hph hldw]
  · rw [(he₁.latches_eq hmicro).2, (he₂.latches_eq hmicro).2, hn]

end Sys2Proof.Machine
end

section
/-! Paths of micro-operations: so many turns of the sequencer inside `HASH64`, with the offsets of DATA they read
(43_hash64_sequence.md R143, R148; 20_memory.md R59). -/

namespace Sys2Proof.Machine

/-- `HashPath k s reads t`: `k` steps lead from `s` to `t`, each from a phase of `HASH64` (1 to 10), and read the offsets
`reads` in order. `run_eq`, `readTrace_eq` and `phases` say so of `run` and `readTrace`. -/
inductive HashPath : Nat → State → List Nat → State → Prop where
  | nil (s : State) : HashPath 0 s [] s
  | cons {k : Nat} {s u t : State} {reads : List Nat} (hfirst : 1 ≤ s.ph.toNat) (hlast : s.ph.toNat ≤ 10)
      (hstep : step s = .next u) (rest : HashPath k u reads t) : HashPath (k + 1) s (s.accessed ++ reads) t

section Paths

variable {j k : Nat} {s t u : State} {xs ys : List Nat}

theorem HashPath.trans (h₁ : HashPath j s xs t) (h₂ : HashPath k t ys u) : HashPath (j + k) s (xs ++ ys) u := by
  induction h₁ with
  | nil s => simpa using h₂
  | cons hfirst hlast hstep rest ih =>
    rw [List.append_assoc, Nat.succ_add]
    exact .cons hfirst hlast hstep (ih h₂)

theorem HashPath.run_eq (h : HashPath k s xs t) : run k s = .next t := by
  induction h with
  | nil s => rfl
  | cons hfirst hlast hstep rest ih => exact run_succ_eq_next.2 ⟨_, hstep, ih⟩

theorem HashPath.readTrace_eq (h : HashPath k s xs t) : readTrace k s = xs := by
  induction h with
  | nil s => rfl
  | cons hfirst hlast hstep rest ih => simp only [readTrace, hstep, ih]

theorem HashPath.phases (h : HashPath k s xs t) :
    ∀ j, j < k → ∃ u, run j s = .next u ∧ 1 ≤ u.ph.toNat ∧ u.ph.toNat ≤ 10 := by
  induction h with
  | nil s => exact fun j hj => absurd hj (Nat.not_lt_zero j)
  | @cons k s v t reads hfirst hlast hstep rest ih =>
    intro j hj
    cases j with
    | zero => exact ⟨s, rfl, hfirst, hlast⟩
    | succ j =>
      obtain ⟨u, hrun, hu⟩ := ih j (Nat.lt_of_succ_lt_succ hj)
      exact ⟨u, run_succ_eq_next.2 ⟨v, hstep, hrun⟩, hu⟩

end Paths

/-- The block serves `bytes` with their true length in `N` (70_reset_and_hazards.md R206 a), and while it is `BUSY` the
sequencer has the turn: the host has no move left, or waits. -/
structure State.Serves (s : State) (bytes : List Byte) : Prop where
  data : s.data = Memory.ofBytes bytes
  length : s.n.toNat = bytes.length
  waits : s.turns = [] ∨ s.turns.head? = some .waitIdle

/-- With no move of the host left, as the statements about a run from `INIT` have it. -/
theorem State.serves_of_turns_nil {s : State} {bytes : List Byte} (ht : s.turns = []) (hdata : s.data = Memory.ofBytes bytes)
    (hlen : bytes.length < 2 ^ 64) (hn : s.n = BitVec.ofNat 64 bytes.length) : s.Serves bytes :=
  ⟨hdata, hn ▸ Nat.mod_eq_of_lt hlen, .inl ht⟩

section Steps

variable {s t : State} {bytes : List Byte} (hs : s.Serves bytes) {i : Instr}
include hs

theorem State.Serves.step_eq (hd : decodePhase s.ph = .ok i) : step s = exec i s := by
  have hl : s.lengthIsTrue = true := s.lengthIsTrue_iff.2 ⟨bytes, hs.data, hs.length⟩
  rcases hs.waits with ht | ht
  · rw [step_of_turns_nil ht, sequencerTurn_of_lengthIsTrue s i hd hl]
  · obtain ⟨rest, ht⟩ := List.head?_eq_some_iff.1 ht
    rw [step_of_turns_waitIdle_of_busy ht (busy_of_decodePhase s i hd), sequencerTurn_of_lengthIsTrue s i hd hl]

/-- One micro-operation other than `LDW` is a path of one step. -/
theorem State.Serves.hashPath (hd : decodePhase s.ph = .ok i) (hi : i ≠ .ldw) (h : exec i s = .next t) :
    HashPath 1 s s.accessed t := by
  obtain ⟨hfirst, hlast⟩ : 1 ≤ s.ph.toNat ∧ s.ph.toNat ≤ 10 := by
    have hcode := decodePhase_eq_ok s.ph i hd
    cases i
    case ldw => exact absurd rfl hi
    case ldle64 | hash64 => cases hcode
    all_goals simp [← Code.ph.inj hcode]
  have hpath := HashPath.cons hfirst hlast ((hs.step_eq hd).trans h) (.nil t)
  rwa [List.append_nil] at hpath

theorem State.Serves.memRead8_eq {a : Nat} (ha : a + 8 ≤ bytes.length) : s.memRead8 a = .ok (rdBytes bytes a 8) :=
  State.memRead8_of_le64 hs.data hs.length (le64_eq_rdBytes ha)

/-- A read of `n` bytes, as a word: the value of any width that holds them extends to `rd8`, `rd2`, `rd1` of R142. -/
theorem State.Serves.memRead_eq {a n w : Nat} (ha : a + n ≤ bytes.length) (hn : 256 ^ n ≤ 2 ^ w) (hw : w ≤ 64) :
    ∃ r, s.memRead a n = .ok r ∧ zext64 (BitVec.ofNat w r) = rdBytes bytes a n := by
  obtain ⟨r, hread, hvalue⟩ := Memory.readLE_ofBytes ha
  have hr : r < 2 ^ w := (Memory.readLE_lt _ a n r hread).trans_le hn
  refine ⟨r, (s.memRead_eq_ok a n r).2 ⟨hs.length ▸ ha, hs.data ▸ hread⟩, ?_⟩
  rw [zext64, BitVec.setWidth_ofNat_of_le_of_lt hw hr, hvalue]

theorem State.Serves.memRead2_eq {a : Nat} (ha : a + 2 ≤ bytes.length) :
    ∃ v, s.memRead2 a = .ok v ∧ zext64 v = rdBytes bytes a 2 := by
  obtain ⟨r, hread, hvalue⟩ := hs.memRead_eq (w := 16) ha (by decide) (by decide)
  exact ⟨_, by rw [State.memRead2, hread, Except.map], hvalue⟩

theorem State.Serves.memRead1_eq {a : Nat} (ha : a + 1 ≤ bytes.length) :
    ∃ v, s.memRead1 a = .ok v ∧ zext64 v = rdBytes bytes a 1 := by
  obtain ⟨r, hread, hvalue⟩ := hs.memRead_eq (w := 8) ha (by decide) (by decide)
  exact ⟨_, by rw [State.memRead1, hread, Except.map], hvalue⟩

end Steps

end Sys2Proof.Machine
end

section
/-! The mixer's run from `BULK` to `COMBINE`, stage by stage (43_hash64_sequence.md R141, R142): where the machine stands is a
position, and each stage of the sequencer is a stage of the reference, reads and lanes alike. -/

namespace Sys2Proof.Machine

/-- A position in the mixer's run: the phase, the lanes, how many bytes were taken, and the lane index, the last two as natural
numbers. `State.mixAt` is the state that stands there. -/
structure MixPos where
  ph : BitVec 4
  h : Lanes
  off : Nat
  i : Nat

/-- The state at a position of the run on `N` bytes; what the mixer does not write is that of `s`. -/
def State.mixAt (s : State) (p : MixPos) : State :=
  { s with
    h := p.h, l := BitVec.ofNat 64 (s.n.toNat - p.off), off := BitVec.ofNat 64 p.off, i := BitVec.ofNat 3 p.i
    ph := p.ph }

/-- Where `INIT` leaves the machine (41_mixer.md R110). -/
abbrev State.mixStart (s : State) : MixPos :=
  ⟨Phase.bulk, ⟨s.params.p1, s.params.p2, s.params.p3, s.a⟩, 0, 0⟩

/-- Where `TAIL2` leaves the machine: the reference's lanes, with every byte taken. -/
abbrev State.mixEnd (s : State) (bytes : List Byte) : MixPos :=
  ⟨Phase.combine, refLanes s.params bytes s.a, bytes.length, evenTail bytes.length % 8 / 2⟩

section Positions

variable {s : State} {p : MixPos}

theorem State.mixAt_i : (s.mixAt p).i = BitVec.ofNat 3 p.i := rfl

theorem State.mixAt_off (hp : p.off ≤ s.n.toNat) : (s.mixAt p).off.toNat = p.off :=
  Nat.mod_eq_of_lt (hp.trans_lt s.n.isLt)

theorem State.mixAt_l : (s.mixAt p).l.toNat = s.n.toNat - p.off :=
  Nat.mod_eq_of_lt ((Nat.sub_le _ _).trans_lt s.n.isLt)

theorem State.mixAt_i_toNat (hi : p.i < 8) : (s.mixAt p).i.toNat = p.i :=
  Nat.mod_eq_of_lt hi

/-- The lane an index below 4 selects. -/
theorem State.mixAt_lane (hi : p.i < 4) : (s.mixAt p).i.toNat = (Fin.ofNat 4 p.i).val :=
  (State.mixAt_i_toNat (by omega)).trans (Nat.mod_eq_of_lt hi).symm

/-- The cursor moved by `c` bytes stands `c` bytes further (10_state.md R24). -/
theorem State.mixAt_move {q : MixPos} {c : Nat} {i : BitVec 3} (hoff : q.off = p.off + c) (hi : i = BitVec.ofNat 3 q.i)
    (hq : q.off ≤ s.n.toNat) :
    { s.mixAt p with
      ph := q.ph, h := q.h, i := i
      off := (s.mixAt p).off + BitVec.ofNat 64 c, l := (s.mixAt p).l - BitVec.ofNat 64 c } = s.mixAt q := by
  have hl : BitVec.ofNat 64 (s.n.toNat - p.off) - BitVec.ofNat 64 c = BitVec.ofNat 64 (s.n.toNat - q.off) := by
    rw [BitVec.ofNat_sub_ofNat_of_le _ _ (by omega) (by omega), hoff, Nat.sub_add_eq]
  simp only [State.mixAt, hl, hi, hoff, BitVec.ofNat_add]

theorem State.mixAt_stay {q : MixPos} {i : BitVec 3} (hoff : q.off = p.off) (hi : i = BitVec.ofNat 3 q.i) :
    { s.mixAt p with ph := q.ph, h := q.h, i := i } = s.mixAt q := by
  simp only [State.mixAt, hi, hoff]

end Positions

/-- `s.Mixes k p q`: `k` steps lead from position `p` to `q`, reading the bytes between them in order. -/
def State.Mixes (s : State) (k : Nat) (p q : MixPos) : Prop :=
  p.off ≤ q.off ∧ HashPath k (s.mixAt p) (List.range' p.off (q.off - p.off)) (s.mixAt q)

theorem State.Mixes.refl {s : State} (p : MixPos) : s.Mixes 0 p p := by
  refine ⟨Nat.le_refl p.off, ?_⟩
  rw [Nat.sub_self]
  exact .nil _

theorem State.Mixes.trans {s : State} {j k : Nat} {p q r : MixPos} (h₁ : s.Mixes j p q) (h₂ : s.Mixes k q r) :
    s.Mixes (j + k) p r := by
  obtain ⟨hpq, h₁⟩ := h₁
  obtain ⟨hqr, h₂⟩ := h₂
  have hreads : List.range' p.off (q.off - p.off) ++ List.range' q.off (r.off - q.off) =
      List.range' p.off (r.off - p.off) := by
    have happend := List.range'_append_1 (s := p.off) (m := q.off - p.off) (n := r.off - q.off)
    rwa [show p.off + (q.off - p.off) = q.off by omega,
      show q.off - p.off + (r.off - q.off) = r.off - p.off by omega] at happend
  exact ⟨hpq.trans hqr, hreads ▸ h₁.trans h₂⟩

theorem State.Mixes.cons {s : State} {k : Nat} {p q r : MixPos} (h₁ : s.Mixes 1 p q) (h₂ : s.Mixes k q r) :
    s.Mixes (k + 1) p r :=
  Nat.add_comm 1 k ▸ h₁.trans h₂

theorem State.accessed_of_accessSpan {s : State} {a n : Nat} (h : s.accessSpan = (a, n)) :
    s.accessed = List.range' a n := by
  rw [State.accessed, h]

section Stages

variable {s : State} {bytes : List Byte} (hs : s.Serves bytes)
include hs

theorem State.Serves.mixAt (p : MixPos) : (s.mixAt p).Serves bytes :=
  ⟨hs.data, hs.length, hs.waits⟩

/-- A step that reads `n` bytes at the cursor and moves over them. -/
theorem State.Serves.mixes_read {p q : MixPos} {i : Instr} {n : Nat} (hd : decodePhase p.ph = .ok i) (hi : i ≠ .ldw)
    (h : exec i (s.mixAt p) = .next (s.mixAt q)) (hoff : q.off = p.off + n)
    (hspan : (s.mixAt p).accessSpan = (p.off, n)) : s.Mixes 1 p q := by
  have hpath := (hs.mixAt p).hashPath hd hi h
  rw [State.accessed_of_accessSpan hspan] at hpath
  exact ⟨by omega, by rwa [hoff, Nat.add_sub_cancel_left]⟩

/-- A step that reads nothing and leaves the cursor. -/
theorem State.Serves.mixes_silent {p q : MixPos} {i : Instr} (hd : decodePhase p.ph = .ok i) (hi : i ≠ .ldw)
    (h : exec i (s.mixAt p) = .next (s.mixAt q)) (hoff : q.off = p.off) (hspan : (s.mixAt p).accessSpan = (0, 0)) :
    s.Mixes 1 p q := by
  have hpath := (hs.mixAt p).hashPath hd hi h
  rw [State.accessed_of_accessSpan hspan] at hpath
  exact ⟨hoff.ge, by rwa [hoff, Nat.sub_self]⟩

/-! ## `BULK` -/

section Bulk

variable {h : Lanes} {o : Nat} (ho : o + 32 ≤ bytes.length)
include ho

/-- Word `k` of the block at `o`. -/
theorem State.Serves.bulk_word (k : Fin 4) :
    HashPath 1 (s.mixAt ⟨Phase.bulk, h, o, k⟩) (List.range' (o + 8 * k) 8)
      ((s.mixAt ⟨Phase.bulk, h, o, k⟩).absorb k (rdBytes bytes (o + 8 * k) 8)) := by
  have hlength := hs.length
  let p : MixPos := ⟨Phase.bulk, h, o, k⟩
  have hoff : (s.mixAt p).off.toNat = o := State.mixAt_off (by dsimp only [p]; omega)
  have hl : (s.mixAt p).l.toNat = s.n.toNat - o := State.mixAt_l
  have hi : (s.mixAt p).i.toNat = k := State.mixAt_i_toNat (by dsimp only [p]; omega)
  have hexit : ¬ ((s.mixAt p).i = 0 ∧ (s.mixAt p).l.toNat < 32) := by omega
  have haddress : bulkAddress (s.mixAt p).off (s.mixAt p).i = o + 8 * k := by rw [bulkAddress, hoff, hi]
  have hread := (hs.mixAt p).memRead8_eq (a := o + 8 * k) (by omega)
  have hpath := (hs.mixAt p).hashPath (i := .bulk) rfl (by decide)
    (execBulk_of_memRead8 hexit hi (haddress ▸ hread))
  rwa [State.accessed_of_accessSpan (State.accessSpan_bulk_word rfl hexit), haddress] at hpath

/-- A word step inside a block leaves the cursor. -/
theorem State.Serves.bulk_word_inside {k : Fin 4} (hk : k.val ≠ 3) :
    HashPath 1 (s.mixAt ⟨Phase.bulk, h, o, k⟩) (List.range' (o + 8 * k) 8)
      (s.mixAt ⟨Phase.bulk, absorbWord s.params.p1 h k (rdBytes bytes (o + 8 * k) 8), o, k + 1⟩) := by
  have hlast : (s.mixAt ⟨Phase.bulk, h, o, k⟩).i ≠ 3 := by
    simp only [State.mixAt_i]
    bv_omega
  have hnext : (s.mixAt ⟨Phase.bulk, h, o, k⟩).absorb k (rdBytes bytes (o + 8 * k) 8) =
      s.mixAt ⟨Phase.bulk, absorbWord s.params.p1 h k (rdBytes bytes (o + 8 * k) 8), o, k + 1⟩ :=
    (State.absorb_not_last hlast _).trans
      (State.mixAt_stay (q := ⟨Phase.bulk, _, o, k + 1⟩) rfl (BitVec.ofNat_add k.val 1).symm)
  exact hnext ▸ hs.bulk_word ho k

/-- The word step that ends a block. -/
theorem State.Serves.bulk_word_last :
    HashPath 1 (s.mixAt ⟨Phase.bulk, h, o, 3⟩) (List.range' (o + 24) 8)
      (s.mixAt ⟨Phase.bulk, absorbWord s.params.p1 h 3 (rdBytes bytes (o + 24) 8), o + 32, 0⟩) := by
  have hnext : (s.mixAt ⟨Phase.bulk, h, o, 3⟩).absorb 3 (rdBytes bytes (o + 24) 8) =
      s.mixAt ⟨Phase.bulk, absorbWord s.params.p1 h 3 (rdBytes bytes (o + 24) 8), o + 32, 0⟩ :=
    (State.absorb_last rfl _).trans
      (State.mixAt_move (q := ⟨Phase.bulk, _, o + 32, 0⟩) rfl rfl (hs.length ▸ ho))
  exact hnext ▸ hs.bulk_word ho 3

/-- Four word steps are one block of step 2 (43_hash64_sequence.md R142). -/
theorem State.Serves.mixes_bulk_block :
    s.Mixes 4 ⟨Phase.bulk, h, o, 0⟩ ⟨Phase.bulk, refBlock s.params bytes o h, o + 32, 0⟩ := by
  have hwords := (((hs.bulk_word_inside ho (h := h) (k := 0) (by decide)).trans
    (hs.bulk_word_inside ho (k := 1) (by decide))).trans
    (hs.bulk_word_inside ho (k := 2) (by decide))).trans (hs.bulk_word_last ho)
  refine ⟨Nat.le_add_right o 32, ?_⟩
  rw [Nat.add_sub_cancel_left]
  exact hwords

end Bulk

theorem State.Serves.mixes_bulk_blocks (k : Nat) {h : Lanes} {o : Nat} (ho : o + 32 * k ≤ bytes.length) :
    s.Mixes (4 * k) ⟨Phase.bulk, h, o, 0⟩ ⟨Phase.bulk, refBlocks s.params bytes k o h, o + 32 * k, 0⟩ := by
  induction k generalizing h o with
  | zero => exact State.Mixes.refl _
  | succ k ih =>
    have hfirst := hs.mixes_bulk_block (h := h) (o := o) (by omega)
    have hrest := ih (h := refBlock s.params bytes o h) (o := o + 32) (by omega)
    rw [show 4 * (k + 1) = 4 + 4 * k by omega, show o + 32 * (k + 1) = o + 32 + 32 * k by omega]
    exact hfirst.trans hrest

theorem State.Serves.mixes_bulk_exit {h : Lanes} {o : Nat} (ho : bytes.length < o + 32) :
    s.Mixes 1 ⟨Phase.bulk, h, o, 0⟩ ⟨Phase.leninj, h, o, 0⟩ := by
  have hlength := hs.length
  have hl : (s.mixAt ⟨Phase.bulk, h, o, 0⟩).l.toNat = s.n.toNat - o := State.mixAt_l
  have hexit : (s.mixAt ⟨Phase.bulk, h, o, 0⟩).i = 0 ∧ (s.mixAt ⟨Phase.bulk, h, o, 0⟩).l.toNat < 32 :=
    ⟨rfl, by omega⟩
  exact hs.mixes_silent (i := .bulk) rfl (by decide) (execBulk_exit hexit) rfl (if_pos hexit)

/-! ## `LENINJ`, `ODDB` and `FIN0` -/

theorem State.Serves.mixes_leninj {h : Lanes} {o i : Nat} :
    s.Mixes 1 ⟨Phase.leninj, h, o, i⟩ ⟨Phase.oddb, { h with h0 := h.h0 + halfSwap s.n }, o, i⟩ :=
  hs.mixes_silent (i := .leninj) rfl (by decide) rfl rfl rfl

theorem State.Serves.mixes_fin0 {h : Lanes} {o i : Nat} :
    s.Mixes 1 ⟨Phase.fin0, h, o, i⟩ ⟨Phase.chunk8, { h with h0 := mixfin h.h0 s.params.p2 }, o, 1⟩ :=
  hs.mixes_silent (i := .fin0) rfl (by decide) rfl rfl rfl

/-- The lanes after step 4 with the tail at `o`: an odd length gives one byte (43_hash64_sequence.md R142). -/
def oddLanes (bytes : List Byte) (o : Nat) (h : Lanes) : Lanes :=
  if bytes.length % 2 = 1 then { h with h0 := h.h0 ^^^ rdBytes bytes o 1 } else h

theorem State.Serves.mixes_oddb {h : Lanes} {o i : Nat} (ho : o ≤ bytes.length) (heven : o % 2 = 0) :
    s.Mixes 1 ⟨Phase.oddb, h, o, i⟩ ⟨Phase.fin0, oddLanes bytes o h, o + bytes.length % 2, i⟩ := by
  have hlength := hs.length
  let p : MixPos := ⟨Phase.oddb, h, o, i⟩
  have hoff : (s.mixAt p).off.toNat = o := State.mixAt_off (hlength ▸ ho)
  have hl : (s.mixAt p).l.toNat = s.n.toNat - o := State.mixAt_l
  have hparity : (s.mixAt p).l.getLsbD 0 = decide (bytes.length % 2 = 1) := by
    rw [getLsbD_zero_eq_odd, hl, hlength]
    exact decide_eq_decide.2 (by omega)
  by_cases hodd : bytes.length % 2 = 1
  · have hbit : (s.mixAt p).l.getLsbD 0 = true := hparity.trans (decide_eq_true hodd)
    obtain ⟨b, hread, hvalue⟩ := (hs.mixAt p).memRead1_eq (a := o) (by omega)
    rw [oddLanes, if_pos hodd, hodd, ← hvalue]
    refine hs.mixes_read (i := .oddb) rfl (by decide) ?_ rfl ((State.accessSpan_oddb_odd rfl hbit).trans (by rw [hoff]))
    rw [exec_oddb, execOddb_of_memRead1 hbit (hoff.symm ▸ hread)]
    exact congrArg _ (State.mixAt_move (s := s) (p := p) (q := ⟨Phase.fin0, _, o + 1, i⟩) rfl rfl
      (by dsimp only; omega))
  · have hbit : ¬ (s.mixAt p).l.getLsbD 0 = true := by rwa [hparity, decide_eq_true_eq]
    have hspan : ¬ (s.mixAt p).l.toNat % 2 = 1 := by omega
    rw [oddLanes, if_neg hodd, Nat.mod_two_ne_one.1 hodd]
    exact hs.mixes_silent (i := .oddb) rfl (by decide) (execOddb_even hbit) rfl (if_neg hspan)

/-! ## `CHUNK8` -/

omit hs in
/-- The reference counts its lanes in `Fin 4`, the machine's index is a number. -/
theorem finOfNat_succ (i : Nat) : Fin.ofNat 4 (i + 1) = Fin.ofNat 4 i + 1 :=
  Fin.ext (by simp [Fin.val_add])

theorem State.Serves.mixes_chunk8_word {h : Lanes} {o i : Nat} (ho : o + 8 ≤ bytes.length) (hi : i < 4) :
    s.Mixes 1 ⟨Phase.chunk8, h, o, i⟩ ⟨Phase.chunk8,
      h.set (Fin.ofNat 4 i) (mixfin (h.get (Fin.ofNat 4 i) ^^^ rdBytes bytes o 8) s.params.p2), o + 8, i + 1⟩ := by
  have hlength := hs.length
  let p : MixPos := ⟨Phase.chunk8, h, o, i⟩
  have hoff : (s.mixAt p).off.toNat = o := State.mixAt_off (by dsimp only [p]; omega)
  have hl : (s.mixAt p).l.toNat = s.n.toNat - o := State.mixAt_l
  have hk : (s.mixAt p).i.toNat = (Fin.ofNat 4 i).val := State.mixAt_lane hi
  have hchunk : 8 ≤ (s.mixAt p).l.toNat := by omega
  refine hs.mixes_read (i := .chunk8) rfl (by decide) ?_ rfl
    ((State.accessSpan_chunk8_word rfl hchunk).trans (by rw [hoff]))
  have hread : (s.mixAt p).memRead8 (s.mixAt p).off.toNat = .ok (rdBytes bytes o 8) := by
    rw [hoff, (hs.mixAt p).memRead8_eq ho]
  rw [exec_chunk8, execChunk8_of_memRead8 hchunk hk hread]
  exact congrArg _ (State.mixAt_move (s := s) (p := p) (q := ⟨Phase.chunk8, _, o + 8, i + 1⟩) rfl
    (BitVec.ofNat_add i 1).symm (by dsimp only; omega))

theorem State.Serves.mixes_chunk8_words (k : Nat) {h : Lanes} {o i : Nat} (ho : o + 8 * k ≤ bytes.length)
    (hi : i + k ≤ 4) :
    s.Mixes k ⟨Phase.chunk8, h, o, i⟩
      ⟨Phase.chunk8, refChunks s.params bytes k o (Fin.ofNat 4 i) h, o + 8 * k, i + k⟩ := by
  induction k generalizing h o i with
  | zero => exact State.Mixes.refl _
  | succ k ih =>
    have hfirst := hs.mixes_chunk8_word (h := h) (o := o) (i := i) (by omega) (by omega)
    have hrest := ih (h := h.set (Fin.ofNat 4 i)
      (mixfin (h.get (Fin.ofNat 4 i) ^^^ rdBytes bytes o 8) s.params.p2)) (o := o + 8) (i := i + 1) (by omega) (by omega)
    rw [finOfNat_succ] at hrest
    rw [show o + 8 * (k + 1) = o + 8 + 8 * k by omega, show i + (k + 1) = i + 1 + k by omega]
    exact hfirst.cons hrest

theorem State.Serves.mixes_chunk8_exit {h : Lanes} {o i : Nat} (ho : bytes.length < o + 8) :
    s.Mixes 1 ⟨Phase.chunk8, h, o, i⟩ ⟨Phase.tail2, h, o, 0⟩ := by
  have hlength := hs.length
  have hl : (s.mixAt ⟨Phase.chunk8, h, o, i⟩).l.toNat = s.n.toNat - o := State.mixAt_l
  have hchunk : ¬ 8 ≤ (s.mixAt ⟨Phase.chunk8, h, o, i⟩).l.toNat := by omega
  exact hs.mixes_silent (i := .chunk8) rfl (by decide) (execChunk8_exit hchunk) rfl (if_neg hchunk)

/-! ## `TAIL2` -/

theorem State.Serves.mixes_tail2_pair {h : Lanes} {o i : Nat} (ho : o + 2 ≤ bytes.length) (hi : i < 4) :
    s.Mixes 1 ⟨Phase.tail2, h, o, i⟩ ⟨Phase.tail2,
      h.set (Fin.ofNat 4 i) (mixfin (h.get (Fin.ofNat 4 i) ^^^ rdBytes bytes o 2) s.params.p3), o + 2, i + 1⟩ := by
  have hlength := hs.length
  let p : MixPos := ⟨Phase.tail2, h, o, i⟩
  have hoff : (s.mixAt p).off.toNat = o := State.mixAt_off (by dsimp only [p]; omega)
  have hl : (s.mixAt p).l.toNat = s.n.toNat - o := State.mixAt_l
  have hk : (s.mixAt p).i.toNat = (Fin.ofNat 4 i).val := State.mixAt_lane hi
  have hpair : 2 ≤ (s.mixAt p).l.toNat := by omega
  obtain ⟨v, hread, hvalue⟩ := (hs.mixAt p).memRead2_eq ho
  refine hs.mixes_read (i := .tail2) rfl (by decide) ?_ rfl ((State.accessSpan_tail2_pair rfl hpair).trans (by rw [hoff]))
  rw [exec_tail2, execTail2_of_memRead2 hpair hk (hoff.symm ▸ hread), hvalue]
  exact congrArg _ (State.mixAt_move (s := s) (p := p) (q := ⟨Phase.tail2, _, o + 2, i + 1⟩) rfl
    (BitVec.ofNat_add i 1).symm (by dsimp only; omega))

theorem State.Serves.mixes_tail2_pairs (k : Nat) {h : Lanes} {o i : Nat} (ho : o + 2 * k ≤ bytes.length)
    (hi : i + k ≤ 4) :
    s.Mixes k ⟨Phase.tail2, h, o, i⟩
      ⟨Phase.tail2, refPairs s.params bytes k o (Fin.ofNat 4 i) h, o + 2 * k, i + k⟩ := by
  induction k generalizing h o i with
  | zero => exact State.Mixes.refl _
  | succ k ih =>
    have hfirst := hs.mixes_tail2_pair (h := h) (o := o) (i := i) (by omega) (by omega)
    have hrest := ih (h := h.set (Fin.ofNat 4 i)
      (mixfin (h.get (Fin.ofNat 4 i) ^^^ rdBytes bytes o 2) s.params.p3)) (o := o + 2) (i := i + 1) (by omega) (by omega)
    rw [finOfNat_succ] at hrest
    rw [show o + 2 * (k + 1) = o + 2 + 2 * k by omega, show i + (k + 1) = i + 1 + k by omega]
    exact hfirst.cons hrest

theorem State.Serves.mixes_tail2_exit {h : Lanes} {o i : Nat} (ho : bytes.length = o) :
    s.Mixes 1 ⟨Phase.tail2, h, o, i⟩ ⟨Phase.combine, h, o, i⟩ := by
  have hlength := hs.length
  have hl : (s.mixAt ⟨Phase.tail2, h, o, i⟩).l.toNat = 0 := by rw [State.mixAt_l]; dsimp only; omega
  have hd : decodePhase (s.mixAt ⟨Phase.tail2, h, o, i⟩).ph = .ok .tail2 := rfl
  have hspan : (s.mixAt ⟨Phase.tail2, h, o, i⟩).accessSpan = (0, 0) := by
    simp only [State.accessSpan, hd, hl]
    rfl
  exact hs.mixes_silent (i := .tail2) rfl (by decide) (execTail2_exit hl.not_gt) rfl hspan

/-- The whole of the mixer after `INIT`: the reference's lanes at the end of the input, every byte read in order. -/
theorem State.Serves.mixes_all :
    s.Mixes (4 * (bytes.length / 32) + evenTail bytes.length / 8 + evenTail bytes.length % 8 / 2 + 6)
      s.mixStart (s.mixEnd bytes) := by
  have hsplit : bytes.length = 32 * (bytes.length / 32) + bytes.length % 2 + evenTail bytes.length := by
    unfold evenTail
    omega
  have htail := evenTail_le bytes.length
  have heven := evenTail_mod_two bytes.length
  have hn : s.n = BitVec.ofNat 64 bytes.length := by
    rw [← hs.length, BitVec.ofNat_toNat, BitVec.setWidth_eq]
  have hbulk := hs.mixes_bulk_blocks (bytes.length / 32) (h := s.mixStart.h) (o := 0) (by omega)
  rw [Nat.zero_add] at hbulk
  have hodd := ((hbulk.trans (hs.mixes_bulk_exit (by omega))).trans hs.mixes_leninj).trans
    (hs.mixes_oddb (by omega) (by omega))
  have hchunks := ((hodd.trans hs.mixes_fin0).trans (hs.mixes_chunk8_words (evenTail bytes.length / 8) (by omega)
    (by omega))).trans (hs.mixes_chunk8_exit (by omega))
  have hpairs := (hchunks.trans (hs.mixes_tail2_pairs (evenTail bytes.length % 8 / 2) (by omega) (by omega))).trans
    (hs.mixes_tail2_exit (by omega))
  have hend : 32 * (bytes.length / 32) + bytes.length % 2 + 8 * (evenTail bytes.length / 8) +
      2 * (evenTail bytes.length % 8 / 2) = bytes.length := by omega
  have hsteps :
      4 * (bytes.length / 32) + 1 + 1 + 1 + 1 + evenTail bytes.length / 8 + 1 + evenTail bytes.length % 8 / 2 + 1 =
      4 * (bytes.length / 32) + evenTail bytes.length / 8 + evenTail bytes.length % 8 / 2 + 6 := by omega
  rw [hend, hsteps, Nat.zero_add, hn] at hpairs
  exact hpairs

end Stages

end Sys2Proof.Machine
end

section
/-! A whole `HASH64` (43_hash64_sequence.md R143, R148, R153; 20_memory.md R59), from `INIT` to
`RET`: the mixer's run between the step of `INIT` and the three of the finalizer. -/

namespace Sys2Proof.Machine

/-- Where the run ends: in `IDLE` with the digest delivered, the lanes and the cursor as the mixer left them. -/
def State.hashed (s : State) (bytes : List Byte) : State :=
  { s.mixAt (s.mixEnd bytes) with
    ph := Phase.idle, x := hash64 s.params bytes s.a, res := hash64 s.params bytes s.a, done := true }

section Run

variable {s : State} {bytes : List Byte} (hs : s.Serves bytes)
include hs

/-- `INIT` comes to the first position, whatever the registers held. -/
theorem State.Serves.hashPath_init (hp : s.ph = Phase.init) :
    HashPath 1 s [] (s.mixAt s.mixStart) := by
  have hd : decodePhase s.ph = .ok .init := hp ▸ rfl
  have hspan : s.accessSpan = (0, 0) := by simp only [State.accessSpan, hd]
  have hinit : exec .init s = .next (s.mixAt s.mixStart) := by
    simp [execInit, State.mixAt]
  have hpath := hs.hashPath hd (by decide) hinit
  rwa [State.accessed_of_accessSpan hspan] at hpath

/-- `COMBINE`, `AVAL` and `RET` turn the reference's lanes into the digest. -/
theorem State.Serves.hashPath_finalizer :
    HashPath 3 (s.mixAt (s.mixEnd bytes)) [] (s.hashed bytes) := by
  let p := s.mixEnd bytes
  let x := combineLanes (refLanes s.params bytes s.a) s.a
  let u : State := { s.mixAt p with x := x, ph := Phase.aval }
  let v : State := { s.mixAt p with x := avalanche x, ph := Phase.ret }
  have hcombine : HashPath 1 (s.mixAt p) [] u := (hs.mixAt p).hashPath (i := .combine) rfl (by decide) rfl
  have haval : HashPath 1 u [] v :=
    State.Serves.hashPath (s := u) ⟨hs.data, hs.length, hs.waits⟩ (i := .aval) rfl (by decide) rfl
  have hret : HashPath 1 v [] (s.hashed bytes) :=
    State.Serves.hashPath (s := v) ⟨hs.data, hs.length, hs.waits⟩ (i := .ret) rfl (by decide) rfl
  exact (hcombine.trans haval).trans hret

/-- The run from `INIT`: `steps(N)` micro-operations, every byte read once and in order, and the digest. -/
theorem State.Serves.hashPath_all (hp : s.ph = Phase.init) :
    HashPath (hashSteps bytes.length) s (List.range bytes.length) (s.hashed bytes) := by
  obtain ⟨-, hmixer⟩ := hs.mixes_all
  have hpath := ((hs.hashPath_init hp).trans hmixer).trans hs.hashPath_finalizer
  have hsteps : 1 + (4 * (bytes.length / 32) + evenTail bytes.length / 8 + evenTail bytes.length % 8 / 2 + 6) + 3 =
      hashSteps bytes.length := by
    unfold hashSteps
    omega
  rw [hsteps] at hpath
  simpa [List.range_eq_range'] using hpath

end Run

/-- Settles O51: the path from `INIT` ends where `State.hashed` says. -/
theorem hashRunComputesHash64 : Obligations.HashRunComputesHash64 := by
  unfold Obligations.HashRunComputesHash64
  intro s bytes hp ht hdata hlen hn
  have hpath := (State.serves_of_turns_nil ht hdata hlen hn).hashPath_all hp
  exact ⟨hpath.phases, s.hashed bytes, hpath.run_eq, rfl, rfl, rfl, rfl⟩

/-- Settles O53: the reads of the path are the offsets below `N`. -/
theorem everyByteIsReadOnce : Obligations.EveryByteIsReadOnce := by
  unfold Obligations.EveryByteIsReadOnce
  intro s bytes hp ht hdata hlen hn
  exact ((State.serves_of_turns_nil ht hdata hlen hn).hashPath_all hp).readTrace_eq

/-- The reference on the empty input: the lanes are the parameters and the seed, lane 0 finalised by `FIN0` (R153). -/
theorem hash64_nil (p : Config.Params) (seed : Word) :
    hash64 p [] seed = avalanche (combineLanes ⟨mixfin p.p1 p.p2, p.p2, p.p3, seed⟩ seed) := by
  have hlanes : refLanes p [] seed = ⟨mixfin p.p1 p.p2, p.p2, p.p3, seed⟩ := by
    simp [refLanes, refBlocks, refChunks, refPairs, evenTail]
  rw [hash64, hlanes]
  rfl

/-- Settles O54: the run on the empty sequence, whose digest is `hash64_nil`. -/
theorem emptyInputDigest : Obligations.EmptyInputDigest := by
  unfold Obligations.EmptyInputDigest
  intro s hp ht hn hdata
  have hpath := (State.serves_of_turns_nil (bytes := []) ht hdata (by decide) hn).hashPath_all hp
  exact ⟨hpath.readTrace_eq, s.hashed [], hpath.run_eq, rfl, rfl, hash64_nil s.params s.a⟩

end Sys2Proof.Machine
end

section
/-! The transaction of a host (70_reset_and_hazards.md R202, R207): DATA connected, `HASH64`, the wait, and the two reads. -/

namespace Sys2Proof.Machine

theorem run_add {j k : Nat} {s t u : State} (h₁ : run j s = .next t) (h₂ : run k t = .next u) :
    run (j + k) s = .next u := by
  induction j generalizing s with
  | zero =>
    obtain rfl := Host.Outcome.next.inj h₁
    rwa [Nat.zero_add]
  | succ j ih =>
    obtain ⟨v, hstep, hrun⟩ := run_succ_eq_next.1 h₁
    rw [Nat.succ_add]
    exact run_succ_eq_next.2 ⟨v, hstep, ih hrun⟩

/-- The host's turns after START of a command line (30_encoding.md R83; log 16). -/
abbrev readTurns : List Turn := [.waitIdle, .host .readStatus, .host .readRes]

/-- The state the START of `HASH64` leaves, with `bytes` connected and the reads to come; `run_start_hash64` comes there. -/
def State.hashStarted (s : State) (bytes : List Byte) (seed : Word) : State :=
  { s with
    turns := readTurns, data := Memory.ofBytes bytes, ports := ⟨0x02, seed, BitVec.ofNat 64 bytes.length⟩
    a := seed, n := BitVec.ofNat 64 bytes.length, done := false, ph := Phase.init }

section Transaction

variable {s : State} {bytes : List Byte}

theorem run_start_hash64 {seed len : Word} (hp : s.ph = Phase.idle) (hlen : bytes.length < 2 ^ 64)
    (ht : s.turns = programTurns len [.data bytes, .hash64 seed]) : run 2 s = .next (s.hashStarted bytes seed) := by
  let turns : List Turn := .host (.start 0x02 seed (BitVec.ofNat 64 bytes.length)) :: readTurns
  let u : State := { s with turns := turns, data := Memory.ofBytes bytes }
  have hidle : s.busy = false := s.busy_eq_false_iff.2 (.inl hp)
  have hconnect : step s = .next u :=
    (step_of_turns_host ht).trans (setDataMove_of_fits (s := { s with turns := turns }) hidle hlen)
  have hstart : step u = .next (s.hashStarted bytes seed) :=
    (step_of_turns_host (s := u) rfl).trans (startMove_of_idle (s := { u with turns := readTurns }) hp 0x02 seed _)
  exact run_succ_eq_next.2 ⟨u, hconnect, run_succ_eq_next.2 ⟨_, hstart, rfl⟩⟩

/-- In `IDLE` with a result the wait ends and the host reads `STATUS` and `RES`. -/
theorem run_readTurns (hp : s.ph = Phase.idle) (hd : s.done = true) (hf : s.fcode = 0) (ht : s.turns = readTurns) :
    run 3 s = .next { s with turns := [], observed := .res s.res :: .status 0x02 :: s.observed } := by
  let u : State := { s with turns := [.host .readStatus, .host .readRes] }
  let v : State := { s with turns := [.host .readRes], observed := .status 0x02 :: s.observed }
  have hwait : step s = .next u := step_of_turns_waitIdle_of_not_busy ht (s.busy_eq_false_iff.2 (.inl hp))
  have hstatus : step u = .next v := by
    rw [(hostReadsStatusAndResult u _).1 rfl, State.status_of_done (s := u) hp hd hf]
  have hres : step v = .next { s with turns := [], observed := .res s.res :: .status 0x02 :: s.observed } :=
    (hostReadsStatusAndResult v _).2.1 rfl hd
  exact run_succ_eq_next.2 ⟨u, hwait, run_succ_eq_next.2 ⟨v, hstatus, run_succ_eq_next.2 ⟨_, hres, rfl⟩⟩⟩

end Transaction

/-- Settles O55: two moves start the command, the run is the path of O51 with the host waiting, and three turns end it. -/
theorem hostProgramGetsTheDigest : Obligations.HostProgramGetsTheDigest := by
  unfold Obligations.HostProgramGetsTheDigest
  intro s bytes seed len hp hf hlen ht
  let u := s.hashStarted bytes seed
  have hs : u.Serves bytes := ⟨rfl, Nat.mod_eq_of_lt hlen, .inr rfl⟩
  have hrun := run_add (run_start_hash64 hp hlen ht) (run_add (hs.hashPath_all rfl).run_eq
    (run_readTurns (s := u.hashed bytes) rfl rfl hf rfl))
  rw [show 2 + (hashSteps bytes.length + 3) = hashSteps bytes.length + 5 by omega] at hrun
  exact ⟨_, hrun, rfl, rfl, State.status_of_done rfl rfl hf, rfl⟩

end Sys2Proof.Machine
end
